-- ==== Sys2Proof/Word.lean ====
section
/-! DEFINITION. The word types of the machine: the 8-bit byte of registers, memory cells and operands
(`WORD`, spec/00_scope.md R18) and the 9-bit program counter (`PC_WIDTH`, spec/10_state.md R108). -/

namespace Sys2Proof

/-- A register, a memory cell, an operand byte or FL: 8 bits, unsigned (R18, R19, R101). -/
abbrev Byte := BitVec 8

/-- The program counter: 9 bits (R108). -/
abbrev PcWord := BitVec 9

end Sys2Proof
end

