-- ==== Sys2Proof/Config.lean ====
section
/-! DEFINITION. The sizes that spec/00_scope.md R18 fixes. The spec leaves no parameter open, so there is no
free value here. The parameters whose value a test could show wrong stand where a repair may mend them:
`OPCODE_MAP` in Decode.lean (`Op.byte`), `SP_INIT` in Machine/Reset.lean (`spInit`), `FL_ENCODING` in
Machine/Flags.lean. -/

namespace Sys2Proof.Config

/-- `MEM_SIZE` (R18, R200): the cells of the one address space, addresses 0..255. -/
abbrev memSize : Nat := 256

/-- `NREG` (R18, R101): R0..R7. -/
abbrev numRegs : Nat := 8

/-- `SP_INDEX` (R18, R104): the stack pointer is R7. -/
abbrev spIndex : Fin 8 := 7

/-- `MAX_OPERANDS` (R18, R300). -/
abbrev maxOperands : Nat := 2

/-- `FETCH_WINDOW` (R18, R402): the bytes every fetch reads, at pc, pc+1 and pc+2. -/
abbrev fetchWindow : Nat := 3

/-- `PROGRAM_MAX` (R18, R216): the longest program image that can be loaded. -/
abbrev programMax : Nat := 256

end Sys2Proof.Config
end

