-- ==== Sys2Proof/Syntax.lean ====
section
/-! DEFINITION. The instructions of the machine, one constructor per row of spec/opcode_table.json
(spec/30_encoding.md R305, R306). Operands are the operand BYTES as the fetch read them (R303, R304): a byte that is
used as a register index may be 8..255, and then the instruction raises `IllegalRegister` when it executes
(spec/10_state.md R105), so the byte is kept whole here and WellFormed.lean says which ones name a register.
Operand bytes that the instruction does not use (R305) are not part of it. -/

namespace Sys2Proof

/-- One instruction with the operand bytes it uses. `a` is operand_a, `b` is operand_b (R305). -/
inductive Instr where
  /-- HALT (R420): no operand. -/
  | halt
  /-- LOAD_IMMEDIATE reg, value (R440). -/
  | loadImmediate (a b : Byte)
  /-- PRINT_REGISTER reg (R441). -/
  | printRegister (a : Byte)
  /-- ADD reg_a, reg_b (R461). -/
  | add (a b : Byte)
  /-- MULTIPLY reg_a, reg_b (R462). -/
  | multiply (a b : Byte)
  /-- PUSH reg (R480). -/
  | push (a : Byte)
  /-- POP reg (R481). -/
  | pop (a : Byte)
  /-- CALL reg (R500). -/
  | call (a : Byte)
  /-- RETURN (R501): no operand. -/
  | ret
  /-- COMPARE reg_a, reg_b (R520). -/
  | compare (a b : Byte)
  /-- JUMP reg (R540). -/
  | jump (a : Byte)
  /-- JUMP_IF_EQUAL reg (R541). -/
  | jumpIfEqual (a : Byte)
  /-- JUMP_IF_NOT_EQUAL reg (R542). -/
  | jumpIfNotEqual (a : Byte)
  deriving DecidableEq, Repr

end Sys2Proof
end

