-- ==== Sys2Proof/WellFormed.lean ====
section
/-! DEFINITION. An instruction is well formed when every operand byte it uses as a register index names a
register, that is, is 0..7 (spec/10_state.md R105, spec/30_encoding.md R305). An instruction that is not well formed is
still decoded and executed: executing it raises `IllegalRegister` (R406). -/

namespace Sys2Proof

/-- The operand byte names one of R0..R7 (R105). The index is never masked to 3 bits. -/
def namesRegister (operand : Byte) : Bool := decide (operand.toNat < 8)

/-- The operand bytes that the instruction uses as register indices, operand_a first (R305, and the columns uses_a and
uses_b of R405). LOAD_IMMEDIATE's second operand is a value and is never checked (R440). -/
def Instr.registerOperands : Instr → List Byte
  | .halt => []
  | .loadImmediate a _ => [a]
  | .printRegister a => [a]
  | .add a b => [a, b]
  | .multiply a b => [a, b]
  | .push a => [a]
  | .pop a => [a]
  | .call a => [a]
  | .ret => []
  | .compare a b => [a, b]
  | .jump a => [a]
  | .jumpIfEqual a => [a]
  | .jumpIfNotEqual a => [a]

/-- Every register operand names a register. -/
def Instr.wellFormed (i : Instr) : Bool := i.registerOperands.all namesRegister

end Sys2Proof
end

