-- ==== Sys2Proof/Decode.lean ====
section
/-! DEFINITION. The instruction encoding (spec/30_encoding.md): the opcode map, the decoder, total on any three bytes and
rejecting by name, and the encoder, both from the one table `Op.byte`. -/

namespace Sys2Proof

/-- The 13 operations of the opcode map: the output `op` of the block instruction_decoder (R306, R414). -/
inductive Op where
  | halt | loadImmediate | printRegister | add | multiply | push | pop | call | ret | compare
  | jump | jumpIfEqual | jumpIfNotEqual
  deriving DecidableEq, Repr

/-- `OPCODE_MAP` (R306): the one table of opcode byte values. -/
def Op.byte : Op → Byte
  | .halt => 0b00000001
  | .loadImmediate => 0b10000010
  | .printRegister => 0b01000111
  | .add => 0b10100000
  | .multiply => 0b10100010
  | .push => 0b01000101
  | .pop => 0b01000110
  | .call => 0b01010000
  | .ret => 0b00010001
  | .compare => 0b10100111
  | .jump => 0b01010100
  | .jumpIfEqual => 0b01010101
  | .jumpIfNotEqual => 0b01010110

/-- The rows of the opcode map, in the order of R306. -/
def Op.all : List Op :=
  [.halt, .loadImmediate, .printRegister, .add, .multiply, .push, .pop, .call, .ret, .compare,
   .jump, .jumpIfEqual, .jumpIfNotEqual]

/-- The AA field, bits 7:6 of an opcode byte: the number of operand bytes (R300, R301). -/
def operandCount (instr : Byte) : Nat := (instr.extractLsb 7 6).toNat

/-- Why a byte is not decoded. -/
inductive DecodeError where
  /-- The opcode byte is none of the 13 of the opcode map (R307). -/
  | unsupportedOperation (opcode : Byte)
  deriving DecidableEq, Repr

/-- `Decode(instr)`, the operation alone: the whole byte is matched against the 13 values (R307, R404); the low 6 bits
or AA alone never decode. -/
def decodeOp (instr : Byte) : Option Op := Op.all.find? fun op => op.byte == instr

/-- The operation with the operand bytes it uses (R303, R305). -/
def Op.instr (op : Op) (opa opb : Byte) : Instr :=
  match op with
  | .halt => .halt
  | .loadImmediate => .loadImmediate opa opb
  | .printRegister => .printRegister opa
  | .add => .add opa opb
  | .multiply => .multiply opa opb
  | .push => .push opa
  | .pop => .pop opa
  | .call => .call opa
  | .ret => .ret
  | .compare => .compare opa opb
  | .jump => .jump opa
  | .jumpIfEqual => .jumpIfEqual opa
  | .jumpIfNotEqual => .jumpIfNotEqual opa

/-- The decoder over the three bytes every fetch reads (R402, R404). Only the first byte decides whether, and as what
operation, the bytes decode. -/
def decode (instr opa opb : Byte) : Except DecodeError Instr :=
  match decodeOp instr with
  | some op => .ok (op.instr opa opb)
  | none => .error (.unsupportedOperation instr)

/-- The operation of an instruction. -/
def Instr.op : Instr → Op
  | .halt => .halt
  | .loadImmediate _ _ => .loadImmediate
  | .printRegister _ => .printRegister
  | .add _ _ => .add
  | .multiply _ _ => .multiply
  | .push _ => .push
  | .pop _ => .pop
  | .call _ => .call
  | .ret => .ret
  | .compare _ _ => .compare
  | .jump _ => .jump
  | .jumpIfEqual _ => .jumpIfEqual
  | .jumpIfNotEqual _ => .jumpIfNotEqual

/-- The operand bytes of an instruction, in ascending address order (R300, R305). -/
def Instr.operands : Instr → List Byte
  | .halt => []
  | .loadImmediate a b => [a, b]
  | .printRegister a => [a]
  | .add a b => [a, b]
  | .multiply a b => [a, b]
  | .push a => [a]
  | .pop a => [a]
  | .call a => [a]
  | .ret => []
  | .compare a b => [a, b]
  | .jump a => [a]
  | .jumpIfEqual a => [a]
  | .jumpIfNotEqual a => [a]

/-- The bytes of an instruction, lowest address first: the opcode byte, then its operand bytes (R204, R300). -/
def encode (i : Instr) : List Byte := i.op.byte :: i.operands

/-- Byte `k` of an instruction whose bits are numbered as spec/opcode_table.json numbers them (bit 0 is the least
significant bit of the first byte); every bit at or above `nbits` is 0. -/
def tableByte (nbits w k : Nat) : Byte := BitVec.ofNat 8 ((w % 2 ^ nbits) / 2 ^ (8 * k))

/-- What the decoder reads from an instruction whose bits are `w`, laid out in memory as the hardware stores it. -/
def decodeTableWord (nbits w : Nat) : Option Instr :=
  match decode (tableByte nbits w 0) (tableByte nbits w 1) (tableByte nbits w 2) with
  | .ok i => some i
  | .error _ => none

end Sys2Proof
end

