-- ==== Sys2Proof/Machine/Reset.lean ====
section
/-! DEFINITION. The reset values that spec/10_state.md R117 to R125 give, apart from State so that a repair may mend one. -/

namespace Sys2Proof.Machine

/-- `SP_INIT` (R18, R118): R7 at reset. -/
def spInit : Byte := 0xF4

/-- R0..R6 are 0 and R7 is `SP_INIT` (R117, R118). -/
def resetRegs : Vector Byte 8 := #v[0, 0, 0, 0, 0, 0, 0, spInit]

/-- pc at reset (R119). -/
def resetPc : PcWord := 0

/-- FL at reset: cleared (R120). -/
def resetFl : Byte := 0x00

/-- What a memory cell that nothing has written reads as: every cell is 0 at reset (R123). -/
def unlistedByte : Byte := 0x00

end Sys2Proof.Machine
end

