-- ==== Sys2Proof/Machine/State.lean ====
section
/-! DEFINITION. The machine's state as plain data (spec/10_state.md R100), the state after reset (R125), and the reasons an
operation of the model can stop. -/

namespace Sys2Proof.Machine

/-- The 256-byte memory `M` (spec/20_memory.md R200) as (address, byte) pairs, addresses strictly rising, no entry equal to
`unlistedByte`; `Memory.wf` (Machine/Ops.lean) says this form holds. -/
abbrev Memory := List Host.Cell

/-- `RUN`, the state of the loop (R113). -/
inductive RunState where
  | running | halted | faulted
  deriving DecidableEq, Repr

/-- The fault causes (spec/60_exceptions.md R600); `Cause.code` gives their numbers. -/
inductive Cause where
  | outOfBounds | stackBounds | unsupportedOperation | illegalRegister | aluUnsupported
  deriving DecidableEq, Repr

/-- The fault record (R605). `instr_valid` is `instr.isSome` (`FaultRecord.instrValid`): the spec gives `instr` no value
when `instr_valid` is 0. -/
structure FaultRecord where
  /-- The cause. -/
  cause : Cause
  /-- pc of the faulting step. -/
  pc : PcWord
  /-- The opcode byte, where it was fetched. -/
  instr : Option Byte
  /-- The address, value, opcode or index of R600. -/
  info : Int
  deriving DecidableEq, Repr

/-- The complete architectural state (R100). -/
structure State where
  /-- R0..R7; R7 is SP (R101, R104). -/
  regs : Vector Byte 8
  /-- The program counter (R106 to R108). -/
  pc : PcWord
  /-- The flags register FL (R110). -/
  fl : Byte
  /-- The run state RUN (R113). -/
  run : RunState
  /-- The fault record FAULT, empty while RUN is Running or Halted (R114). -/
  fault : Option FaultRecord
  /-- The output stream OUT, in execution order (spec/42_data_movement.md R442). -/
  out : List Byte
  /-- The memory M (R200). -/
  mem : Memory
  deriving DecidableEq, Repr

/-- Why an operation of the model stops with a fault. NO STEP OF THE CORE ANSWERS ONE: a fault of the CORE (R600) is taken,
as R604 describes it, and the step answers the next state, which is Faulted. -/
inductive Fault where
  /-- LoadError (R216, R600): raised by `load` alone, for a program image of more than 256 bytes; no memory is modified and
  no step is taken. Safe: nothing runs. -/
  | loadError
  deriving DecidableEq, Repr

/-- Why an operation of the model is refused. No step of the CORE is refused. -/
inductive Refusal where
  /-- An instruction with no meaning yet; `exec` would say so in its arm. No arm does. Safe. -/
  | notModelled (mnemonic : String)
  /-- Raised by `load` alone: a load when one was made, or a step taken, since the last reset, which
  spec/70_reset_and_hazards.md R711 does not admit. Safe: nothing runs. -/
  | loadNotAfterReset
  deriving DecidableEq, Repr

/-- The state right after reset (R117 to R125). -/
def State.reset : State :=
  { regs := resetRegs, pc := resetPc, fl := resetFl, run := .running, fault := none, out := [], mem := [] }

end Sys2Proof.Machine
end

