-- ==== Sys2Proof/Machine/Ops.lean ====
section
/-! DEFINITION. The named operations over memory, registers, pc and output that the meanings are written with (the primitives of
spec/00_scope.md R20), and taking a fault (spec/60_exceptions.md R604) as one shared operation. -/

namespace Sys2Proof.Machine

/-! ### Memory as a canonical list -/

/-- The byte at an address; an address that is not listed reads as `unlistedByte` (R123). -/
def Memory.read : Memory → Nat → Byte
  | [], _ => unlistedByte
  | (b, w) :: m, a => if a = b then w else Memory.read m a

/-- The memory with no entry for the address. -/
def Memory.dropCell : Memory → Nat → Memory
  | [], _ => []
  | (b, w) :: m, a => if b = a then Memory.dropCell m a else (b, w) :: Memory.dropCell m a

/-- The memory with an entry for the address in its place among rising addresses. -/
def Memory.putCell : Memory → Nat → Byte → Memory
  | [], a, v => [(a, v)]
  | (b, w) :: m, a, v => if a < b then (a, v) :: (b, w) :: m else (b, w) :: Memory.putCell m a v

/-- Store the byte at an address, keeping the canonical form: storing what an unlisted address reads as removes the entry. -/
def Memory.write (m : Memory) (a : Nat) (v : Byte) : Memory :=
  if v = unlistedByte then m.dropCell a else (m.dropCell a).putCell a v

/-- Every address is at least `lo` and below `MEM_SIZE`, addresses rise strictly, no entry equals `unlistedByte`. -/
def Memory.wfFrom (lo : Nat) : Memory → Bool
  | [] => true
  | (a, v) :: m => decide (lo ≤ a) && decide (a < Config.memSize) && (v != unlistedByte) && Memory.wfFrom (a + 1) m

/-- The memory is in canonical form. -/
def Memory.wf (m : Memory) : Bool := Memory.wfFrom 0 m

/-! ### Faults of the CORE -/

/-- `raise F(info)` (R20, R600): the faults of the CORE with the information each records. -/
inductive CoreFault where
  /-- Code 1: the address outside 0..255. -/
  | outOfBounds (address : Int)
  /-- Code 2: the new SP value outside 0..255. -/
  | stackBounds (value : Int)
  /-- Code 3: the opcode byte. -/
  | unsupportedOperation (opcode : Byte)
  /-- Code 4: the operand byte used as a register index. -/
  | illegalRegister (index : Byte)
  /-- Code 5: the ALU tag; no decoded instruction reaches it (spec/43_arithmetic.md R463). -/
  | aluUnsupported (tag : Nat)
  deriving DecidableEq, Repr

/-- The cause field (R600). -/
def CoreFault.cause : CoreFault → Cause
  | .outOfBounds _ => .outOfBounds
  | .stackBounds _ => .stackBounds
  | .unsupportedOperation _ => .unsupportedOperation
  | .illegalRegister _ => .illegalRegister
  | .aluUnsupported _ => .aluUnsupported

/-- The info field (the column "info recorded" of R600). -/
def CoreFault.info : CoreFault → Int
  | .outOfBounds address => address
  | .stackBounds value => value
  | .unsupportedOperation opcode => opcode.toNat
  | .illegalRegister index => index.toNat
  | .aluUnsupported tag => tag

/-- The cause codes (R600), 3 bits (R605). -/
def Cause.code : Cause → BitVec 3
  | .outOfBounds => 1
  | .stackBounds => 2
  | .unsupportedOperation => 3
  | .illegalRegister => 4
  | .aluUnsupported => 5

/-- `instr_valid` (R605). -/
def FaultRecord.instrValid (r : FaultRecord) : Bool := r.instr.isSome

/-- RUN's encoding for a host that reads it as a field (R113); 11 is never held. -/
def RunState.code : RunState → BitVec 2
  | .running => 0b00
  | .halted => 0b01
  | .faulted => 0b10

/-! ### Registers, FL, pc, RUN, OUT, memory: one home and one accessor each -/

/-- `x[r]` (R20). -/
def State.reg (s : State) (r : Fin 8) : Byte := s.regs[r]

/-- `x[r] <- v` (R20). No register is hardwired (R103). -/
def State.setReg (s : State) (r : Fin 8) (v : Byte) : State := { s with regs := s.regs.set r v }

/-- `SP` is a name for `x[7]` (R104). -/
def State.sp (s : State) : Byte := s.reg Config.spIndex

/-- `pc <- t` (R20). -/
def State.setPc (s : State) (t : PcWord) : State := { s with pc := t }

/-- `pc <- pc + k`, unmasked: a fetch leaves pc at 253 or less, so 9 bits hold the sum (R108, R408). -/
def State.advance (s : State) (k : Nat) : State := s.setPc (BitVec.ofNat 9 (s.pc.toNat + k))

/-- `pc <- v` for a byte: an absolute address 0..255 (spec/47_branch.md R543). -/
def State.jumpTo (s : State) (v : Byte) : State := s.setPc (v.setWidth 9)

/-- `FL <- v` (R20). -/
def State.setFl (s : State) (v : Byte) : State := { s with fl := v }

/-- `RUN <- r` (R113). -/
def State.setRun (s : State) (r : RunState) : State := { s with run := r }

/-- `Out(v)` (R20, R442): append one byte to OUT. -/
def State.emit (s : State) (v : Byte) : State := { s with out := s.out ++ [v] }

/-- The memory replaced whole. -/
def State.setMem (s : State) (m : Memory) : State := { s with mem := m }

/-- The byte memory holds at an address. -/
def State.byteAt (s : State) (a : Nat) : Byte := s.mem.read a

/-! ### The two memory primitives -/

/-- The bounds check of the two primitives: a computed integer outside 0..255 is no address (R201, R202). -/
def outOfRange (a : Int) : Bool := decide (a < 0) || decide (255 < a)

/-- `MemRead(a, 1)` (R201). -/
def memRead (s : State) (a : Int) : Except CoreFault Byte :=
  if outOfRange a then .error (.outOfBounds a) else .ok (s.byteAt a.toNat)

/-- `MemWrite(a, 1, v)` (R202): stores `v & 0xFF`. -/
def memWrite (s : State) (a : Int) (v : Nat) : Except CoreFault State :=
  if outOfRange a then .error (.outOfBounds a)
  else .ok (s.setMem (s.mem.write a.toNat (BitVec.ofNat 8 v)))

/-! ### Taking a fault -/

/-- Fault entry (R604, R605): `RUN <- Faulted` and `FAULT` is written, with the opcode byte where it was fetched; nothing else
changes, so pc keeps the faulting instruction's address. There is no return from a fault (R606). -/
def takeFault (instr : Option Byte) (f : CoreFault) (s : State) : State :=
  { s with
    run := .faulted
    fault := some { cause := f.cause, pc := s.pc, instr := instr, info := f.info } }

/-- A step is atomic (R21): the whole effect of the body, or, where it raises a fault, none of it and fault entry from the
state before the instruction (R604). -/
def commit (op : Op) (s : State) (body : Except CoreFault State) : Host.Outcome State Fault Refusal :=
  match body with
  | .ok t => .next t
  | .error f => .next (takeFault (some op.byte) f s)

end Sys2Proof.Machine
end

