-- ==== Sys2Proof/Machine/Flags.lean ====
section
/-! DEFINITION. The flags register FL: its codes (spec/10_state.md R110), the comparator that computes them
(spec/46_compare.md R520) and the one predicate that reads it (R112). -/

namespace Sys2Proof.Machine

/-- Equal, bit 0 (R110). -/
def flEqual : Byte := 0x01

/-- Greater-Than, bit 1 (R110). -/
def flGreater : Byte := 0x02

/-- Less-Than, bit 2 (R110). -/
def flLess : Byte := 0x04

/-- The FL code of a comparison of two unsigned bytes (R520, R521). -/
def compareFl (a b : Byte) : Byte :=
  if b.toNat < a.toNat then flGreater else if a.toNat < b.toNat then flLess else flEqual

/-- `isEqual = (FL == 0x01)` (R112, R417). -/
def isEqual (fl : Byte) : Bool := fl == flEqual

end Sys2Proof.Machine
end

