-- ==== Sys2Proof/Machine/Alu.lean ====
section
/-! DEFINITION. The block alu_simple (spec/43_arithmetic.md R460, spec/40_core_cycle.md R416). -/

namespace Sys2Proof.Machine

/-- The operation tag: the supported set, and any tag outside it (R416, R463). -/
inductive AluTag where
  | add | mul | cmp
  /-- A tag outside the supported set; the decoder issues none. -/
  | unsupported (tag : Nat)
  deriving DecidableEq, Repr

/-- The byte on the output the tag drives: `y` for ADD and MUL, reduced modulo 256 (R460), `cmp` for CMP (R416). A tag outside
the set raises `AluUnsupported` (R463). -/
def alu (tag : AluTag) (a b : Byte) : Except CoreFault Byte :=
  match tag with
  | .add => .ok (a + b)
  | .mul => .ok (a * b)
  | .cmp => .ok (compareFl a b)
  | .unsupported t => .error (.aluUnsupported t)

end Sys2Proof.Machine
end

