-- ==== Sys2Proof/Machine/Operands.lean ====
section
/-! DEFINITION. The one operand form that is checked, the register operand (spec/30_encoding.md R304, spec/40_core_cycle.md
R406), and the stack-pointer arithmetic of the block stack_pointer_logic (R419). -/

namespace Sys2Proof.Machine

/-- A register operand: its byte names a register when it is 0..7, and raises `IllegalRegister` otherwise (R105, R406). -/
def registerOperand (operand : Byte) : Except CoreFault (Fin 8) :=
  if h : operand.toNat < 8 then .ok ⟨operand.toNat, h⟩ else .error (.illegalRegister operand)

/-- `sp_dec` (R419): an integer, -1..254. -/
def spDec (sp : Byte) : Int := (sp.toNat : Int) - 1

/-- `sp_inc` (R419): an integer, 1..256. -/
def spInc (sp : Byte) : Int := (sp.toNat : Int) + 1

/-- `x[7] <- v` for a computed integer: raises `StackBounds` outside 0..255 instead of wrapping (R102, R419). -/
def writeSp (s : State) (v : Int) : Except CoreFault State :=
  if outOfRange v then .error (.stackBounds v)
  else .ok (s.setReg Config.spIndex (BitVec.ofInt 8 v))

/-- A push (PUSH, CALL) first moves SP down by one (R480, R482, R500). -/
def decSp (s : State) : Except CoreFault State := writeSp s (spDec s.sp)

/-- A pop (POP, RETURN) moves SP up by one after its read (R481, R482, R501). -/
def incSp (s : State) : Except CoreFault State := writeSp s (spInc s.sp)

end Sys2Proof.Machine
end

