-- ==== Sys2Proof/Machine/Arithmetic.lean ====
section
/-! DEFINITION. Arithmetic: ADD and MULTIPLY (spec/43_arithmetic.md). -/

namespace Sys2Proof.Machine

/-- The shape ADD and MULTIPLY share: both operands checked in order (R406), `x[opa] <- Alu(tag, x[opa], x[opb])`,
`pc <- pc + 3`. -/
def aluToRegister (tag : AluTag) (a b : Byte) (s : State) : Except CoreFault State := do
  let ra ← registerOperand a
  let rb ← registerOperand b
  let y ← alu tag (s.reg ra) (s.reg rb)
  return (s.setReg ra y).advance 3

/-- ADD (R461): `x[opa] <- (x[opa] + x[opb]) & 0xFF`; FL is not written. -/
def execAdd (a b : Byte) (s : State) : Host.Outcome State Fault Refusal :=
  commit .add s (aluToRegister .add a b s)

/-- MULTIPLY (R462): `x[opa] <- (x[opa] * x[opb]) & 0xFF`; FL is not written. -/
def execMultiply (a b : Byte) (s : State) : Host.Outcome State Fault Refusal :=
  commit .multiply s (aluToRegister .mul a b s)

end Sys2Proof.Machine
end

