-- ==== Sys2Proof/Machine/Branch.lean ====
section
/-! DEFINITION. Branches: JUMP, JUMP_IF_EQUAL and JUMP_IF_NOT_EQUAL (spec/47_branch.md). -/

namespace Sys2Proof.Machine

/-- The shape the jumps share: the register operand is checked whether or not the jump is taken (R105, R406); taken,
`pc <- x[opa]`; not taken, `pc <- pc + 2`. -/
def jumpWhen (taken : Bool) (a : Byte) (s : State) : Except CoreFault State := do
  let ra ← registerOperand a
  return if taken then s.jumpTo (s.reg ra) else s.advance 2

/-- JUMP (R540): always taken; FL is not read. -/
def execJump (a : Byte) (s : State) : Host.Outcome State Fault Refusal :=
  commit .jump s (jumpWhen true a s)

/-- JUMP_IF_EQUAL (R541): taken when FL is Equal. -/
def execJumpIfEqual (a : Byte) (s : State) : Host.Outcome State Fault Refusal :=
  commit .jumpIfEqual s (jumpWhen (isEqual s.fl) a s)

/-- JUMP_IF_NOT_EQUAL (R542): taken when FL is not Equal, FL = 0x00 included. -/
def execJumpIfNotEqual (a : Byte) (s : State) : Host.Outcome State Fault Refusal :=
  commit .jumpIfNotEqual s (jumpWhen (!isEqual s.fl) a s)

end Sys2Proof.Machine
end

