-- ==== Sys2Proof/Machine/Compare.lean ====
section
/-! DEFINITION. Comparison: COMPARE (spec/46_compare.md). -/

namespace Sys2Proof.Machine

/-- COMPARE (R520): FL is replaced whole by the code of the unsigned comparison; `pc <- pc + 3`. -/
def execCompare (a b : Byte) (s : State) : Host.Outcome State Fault Refusal :=
  commit .compare s do
    let ra ← registerOperand a
    let rb ← registerOperand b
    let code ← alu .cmp (s.reg ra) (s.reg rb)
    return (s.setFl code).advance 3

end Sys2Proof.Machine
end

