-- ==== Sys2Proof/Machine/Control.lean ====
section
/-! DEFINITION. Machine control: HALT (spec/41_machine_control.md). -/

namespace Sys2Proof.Machine

/-- HALT (R420): `RUN <- Halted`; pc is not written. -/
def execHalt (s : State) : Host.Outcome State Fault Refusal :=
  commit .halt s (.ok (s.setRun .halted))

end Sys2Proof.Machine
end

