-- ==== Sys2Proof/Machine/DataMovement.lean ====
section
/-! DEFINITION. Data movement: LOAD_IMMEDIATE and PRINT_REGISTER (spec/42_data_movement.md). -/

namespace Sys2Proof.Machine

/-- LOAD_IMMEDIATE (R440): `x[opa] <- opb; pc <- pc + 3`. -/
def execLoadImmediate (a b : Byte) (s : State) : Host.Outcome State Fault Refusal :=
  commit .loadImmediate s do
    let ra ← registerOperand a
    return (s.setReg ra b).advance 3

/-- PRINT_REGISTER (R441): `Out(x[opa]); pc <- pc + 2`. -/
def execPrintRegister (a : Byte) (s : State) : Host.Outcome State Fault Refusal :=
  commit .printRegister s do
    let ra ← registerOperand a
    return (s.emit (s.reg ra)).advance 2

end Sys2Proof.Machine
end

