-- ==== Sys2Proof/Machine/Stack.lean ====
section
/-! DEFINITION. The stack: PUSH and POP (spec/44_stack.md). Statements run in the order written, and a later one reads what an
earlier one wrote (spec/00_scope.md R20), which decides the forms with operand R7. -/

namespace Sys2Proof.Machine

/-- PUSH (R480): SP down by one, then `MemWrite(x[7], 1, x[opa])` with x[opa] read after the SP write. -/
def execPush (a : Byte) (s : State) : Host.Outcome State Fault Refusal :=
  commit .push s do
    let ra ← registerOperand a
    let s1 ← decSp s
    let s2 ← memWrite s1 s1.sp.toNat (s1.reg ra).toNat
    return s2.advance 2

/-- POP (R481): read at SP, write x[opa], then SP up by one, SP read after that write. -/
def execPop (a : Byte) (s : State) : Host.Outcome State Fault Refusal :=
  commit .pop s do
    let ra ← registerOperand a
    let v ← memRead s s.sp.toNat
    let s1 ← incSp (s.setReg ra v)
    return s1.advance 2

end Sys2Proof.Machine
end

