-- ==== Sys2Proof/Machine/Subroutine.lean ====
section
/-! DEFINITION. Subroutine call and return: CALL and RETURN (spec/45_subroutine.md). -/

namespace Sys2Proof.Machine

/-- CALL (R500): SP down by one, `MemWrite(x[7], 1, pc + 2)`, then `pc <- x[opa]`, read after the SP write. -/
def execCall (a : Byte) (s : State) : Host.Outcome State Fault Refusal :=
  commit .call s do
    let ra ← registerOperand a
    let s1 ← decSp s
    let s2 ← memWrite s1 s1.sp.toNat (s1.pc.toNat + 2)
    return s2.jumpTo (s2.reg ra)

/-- RETURN (R501): read at SP, SP up by one, then `pc <- ` the byte read. -/
def execReturn (s : State) : Host.Outcome State Fault Refusal :=
  commit .ret s do
    let t ← memRead s s.sp.toNat
    let s1 ← incSp s
    return s1.jumpTo t

end Sys2Proof.Machine
end

