-- ==== Sys2Proof/Machine/Fetch.lean ====
section
/-! DEFINITION. Fetch (spec/40_core_cycle.md R402): the three reads every step begins with, and placing the bytes of an
instruction where the next fetch reads them. -/

namespace Sys2Proof.Machine

/-- The fetch latches of one step (spec/10_state.md R115): they live only within the step, so they are no part of State. -/
structure Fetched where
  instr : Byte
  opa : Byte
  opb : Byte
  deriving DecidableEq, Repr

/-- The reads at pc, pc+1 and pc+2, in that order, whatever the instruction's length (R402). A read that fails raises
`OutOfBounds` with its address; beside it stands the opcode byte where the first read had fetched it (`instr_valid`, R605). -/
def fetch (s : State) : Except (Option Byte × CoreFault) Fetched :=
  match memRead s s.pc.toNat with
  | .error f => .error (none, f)
  | .ok instr =>
    match memRead s (s.pc.toNat + 1) with
    | .error f => .error (some instr, f)
    | .ok opa =>
      match memRead s (s.pc.toNat + 2) with
      | .error f => .error (some instr, f)
      | .ok opb => .ok ⟨instr, opa, opb⟩

/-- The address the next fetch is made at once a program is placed: pc where three bytes fit there, else the reset entry 0
(R402, R701). -/
def placeAddress (s : State) : Nat := if s.pc.toNat + 2 ≤ 255 then s.pc.toNat else 0

/-- The three bytes stored at `placeAddress`, with what a fetch needs: pc at that address, RUN = Running, and so FAULT empty
(R114, R402, R403). In a Running state whose pc is at most 253 nothing but memory changes. -/
def placeInstruction (s : State) (b0 b1 b2 : Byte) : State :=
  let a := placeAddress s
  { s with
    pc := BitVec.ofNat 9 a
    run := .running
    fault := if s.run = .running then s.fault else none
    mem := ((s.mem.write a b0).write (a + 1) b1).write (a + 2) b2 }

end Sys2Proof.Machine
end

