-- ==== Sys2Proof/Machine/Cycle.lean ====
section
/-! DEFINITION. The step (spec/40_core_cycle.md R411): fetch, decode, execute, in that order of fault priority
(spec/60_exceptions.md R603). The register-index check is the first statement of each meaning (`registerOperand`). -/

namespace Sys2Proof.Machine

/-- Decode and execute the fetched bytes; an unrecognized opcode byte raises `UnsupportedOperation` (R307, R404). -/
def decodeAndExecute (w : Fetched) (s : State) : Host.Outcome State Fault Refusal :=
  match decode w.instr w.opa w.opb with
  | .ok i => exec i s
  | .error (.unsupportedOperation opcode) => .next (takeFault (some w.instr) (.unsupportedOperation opcode) s)

/-- One step while RUN = Running (R411). -/
def runningStep (s : State) : Host.Outcome State Fault Refusal :=
  match fetch s with
  | .error (instr, f) => .next (takeFault instr f s)
  | .ok w => decodeAndExecute w s

/-- A step happens only while RUN = Running (R403); after the run has ended the state does not change (R410). -/
def cycle (s : State) : Host.Outcome State Fault Refusal :=
  match s.run with
  | .running => runningStep s
  | .halted => .next s
  | .faulted => .next s

end Sys2Proof.Machine
end

