-- ==== Sys2Proof/Machine/Step.lean ====
section
/-! DEFINITION. The step function, and a state whose next step runs a given instruction. -/

namespace Sys2Proof.Machine

/-- One step of the CORE (spec/40_core_cycle.md R401, R411). -/
def step (s : State) : Host.Outcome State Fault Refusal := cycle s

/-- `s` with the instruction whose bits are `w` (numbered as spec/opcode_table.json numbers them, the bits at and above
`nbits` zero) stored where `step` fetches its next instruction. -/
def State.withFetchWord (s : State) (nbits w : Nat) : State :=
  placeInstruction s (tableByte nbits w 0) (tableByte nbits w 1) (tableByte nbits w 2)

end Sys2Proof.Machine
end

