-- ==== Sys2Proof/Machine/Blocks.lean ====
section
/-! DEFINITION. The CORE as its seven blocks (spec/00_scope.md R11, spec/40_core_cycle.md R400, R405, R412 to R419): each block is a function
of its input ports, and `datapath` composes them into one step. The instruction rules govern (R405); that this composition
computes the same step as they do is a claim about the model (Obligations.DatapathRefinesStep). -/

namespace Sys2Proof.Machine

/-! ### instruction_decoder (R405, R414) -/

/-- `reg_wsrc`: the source of a register write. -/
inductive RegWriteSource where
  | imm | alu | mem
  deriving DecidableEq, Repr

/-- `sp_op`. -/
inductive SpOp where
  | none | dec | inc
  deriving DecidableEq, Repr

/-- `mem_op` with `mem_wsrc`: a write stores a register or the return address. -/
inductive MemOp where
  | none | read | writeReg | writeRetAddr
  deriving DecidableEq, Repr

/-- `pc_sel`. -/
inductive PcSel where
  | seq | reg | condEq | condNe | mem | hold
  deriving DecidableEq, Repr

/-- The controls of R405. A "-" of the table is `none`: `reg_we` is `regWrite.isSome`. -/
structure Controls where
  usesA : Bool := false
  usesB : Bool := false
  regWrite : Option RegWriteSource := .none
  aluTag : Option AluTag := .none
  flWe : Bool := false
  spOp : SpOp := .none
  memOp : MemOp := .none
  pcSel : PcSel := .hold
  outEn : Bool := false
  halt : Bool := false
  deriving DecidableEq, Repr

/-- The control table (R405), row by row. -/
def controls : Op → Controls
  | .halt => { halt := true }
  | .loadImmediate => { usesA := true, regWrite := some .imm, pcSel := .seq }
  | .printRegister => { usesA := true, pcSel := .seq, outEn := true }
  | .add => { usesA := true, usesB := true, regWrite := some .alu, aluTag := some .add, pcSel := .seq }
  | .multiply => { usesA := true, usesB := true, regWrite := some .alu, aluTag := some .mul, pcSel := .seq }
  | .push => { usesA := true, spOp := .dec, memOp := .writeReg, pcSel := .seq }
  | .pop => { usesA := true, regWrite := some .mem, spOp := .inc, memOp := .read, pcSel := .seq }
  | .call => { usesA := true, spOp := .dec, memOp := .writeRetAddr, pcSel := .reg }
  | .ret => { spOp := .inc, memOp := .read, pcSel := .mem }
  | .compare => { usesA := true, usesB := true, aluTag := some .cmp, flWe := true, pcSel := .seq }
  | .jump => { usesA := true, pcSel := .reg }
  | .jumpIfEqual => { usesA := true, pcSel := .condEq }
  | .jumpIfNotEqual => { usesA := true, pcSel := .condNe }

/-- The decoder's outputs (R414). -/
structure DecoderOut where
  op : Option Op
  illegal : Bool
  n : BitVec 2
  controls : Controls
  deriving DecidableEq, Repr

/-- instruction_decoder: with `illegal` every control is inactive (R414). -/
def instructionDecoder (instr : Byte) : DecoderOut :=
  match decodeOp instr with
  | some op => { op := some op, illegal := false, n := instr.extractLsb 7 6, controls := controls op }
  | none => { op := .none, illegal := true, n := instr.extractLsb 7 6, controls := {} }

/-! ### The memory port (R413) and fetch_unit (R412) -/

/-- `mem_read(addr[7:0])`. -/
def portRead (m : Memory) (addr : Byte) : Byte := m.read addr.toNat

/-- `mem_write(addr[7:0], data[7:0])`. -/
def portWrite (m : Memory) (addr data : Byte) : Memory := m.write addr.toNat data

/-- fetch_unit's outputs: a byte is absent where its address is outside 0..255 and so never reaches the port (R413), and after
the first read that fails; `faultAddr` is `fetch_fault_addr` when `fetch_fault` is 1. -/
structure FetchOut where
  instr : Option Byte
  opa : Option Byte
  opb : Option Byte
  faultAddr : Option (BitVec 9)
  deriving DecidableEq, Repr

/-- fetch_unit (R412): `run` gates the fetch; `fetch_fault_addr` is the least pc + k above 255. -/
def fetchUnit (m : Memory) (pc : PcWord) (run : Bool) : FetchOut :=
  let at_ (k : Nat) : Byte := portRead m (BitVec.ofNat 8 (pc.toNat + k))
  if !run then ⟨none, none, none, none⟩
  else if 255 < pc.toNat then ⟨none, none, none, some pc⟩
  else if 255 < pc.toNat + 1 then ⟨some (at_ 0), none, none, some (BitVec.ofNat 9 (pc.toNat + 1))⟩
  else if 255 < pc.toNat + 2 then ⟨some (at_ 0), some (at_ 1), none, some (BitVec.ofNat 9 (pc.toNat + 2))⟩
  else ⟨some (at_ 0), some (at_ 1), some (at_ 2), none⟩

/-! ### stack_pointer_logic (R419) -/

/-- The new SP value as an integer, the address of the stack access, and `stack_fault`. -/
structure StackOut where
  newSp : Int
  address : Byte
  fault : Bool
  deriving DecidableEq, Repr

/-- stack_pointer_logic: `sp_q` is R7 (or, for POP with opa = 7, the byte just loaded into it, `popped`, for the increment
alone); the access is at `sp_dec` for a push and at `sp_q` for a pop. -/
def stackPointerLogic (spQ : Byte) (popped : Option Byte) : SpOp → StackOut
  | .none => { newSp := spQ.toNat, address := spQ, fault := false }
  | .dec => { newSp := spDec spQ, address := BitVec.ofInt 8 (spDec spQ), fault := outOfRange (spDec spQ) }
  | .inc => { newSp := spInc (popped.getD spQ), address := spQ, fault := outOfRange (spInc (popped.getD spQ)) }

/-! ### register_file (R415) -/

/-- The 3-bit index port; indices reach it only after the check of R406. -/
def portIndex (operand : Byte) : Fin 8 := ⟨operand.toNat % 8, Nat.mod_lt _ (by decide)⟩

/-- A read port: R7 in a step that also decrements SP reads as the updated SP (R415). -/
def readPort (regs : Vector Byte 8) (idx : Fin 8) (updatedSp : Option Byte) : Byte :=
  match updatedSp with
  | some v => if idx = Config.spIndex then v else regs[idx]
  | none => regs[idx]

/-- The write port W, then the SP write, whose value already takes a byte loaded into R7 into account (R415). -/
def registerFileWrite (regs : Vector Byte 8) (w : Option (Fin 8 × Byte)) (sp : Option Byte) : Vector Byte 8 :=
  let regs1 := match w with
    | some (i, v) => regs.set i v
    | none => regs
  match sp with
  | some v => regs1.set Config.spIndex v
  | none => regs1

/-! ### flags_register (R417) and program_counter (R418) -/

/-- flags_register: written only when `fl_we` is 1. -/
def flagsRegister (flQ : Byte) (flWe : Bool) (flD : Byte) : Byte :=
  match flWe with
  | true => flD
  | false => flQ

/-- program_counter's `next_pc` (R408, R418). -/
def nextPc (sel : PcSel) (pcQ : PcWord) (n : BitVec 2) (targetReg targetMem : Byte) (isEq : Bool) : PcWord :=
  let plus2 : PcWord := BitVec.ofNat 9 (pcQ.toNat + 2)
  match sel with
  | .seq => BitVec.ofNat 9 (pcQ.toNat + (1 + n.toNat))
  | .reg => targetReg.setWidth 9
  | .condEq => if isEq then targetReg.setWidth 9 else plus2
  | .condNe => if isEq then plus2 else targetReg.setWidth 9
  | .mem => targetMem.setWidth 9
  | .hold => pcQ

/-! ### The composition (R400, R411) -/

/-- The state written at the end of a step whose blocks raised no fault, from the values on the ports. -/
def writeBack (c : Controls) (n : BitVec 2) (opa opb : Byte) (st : StackOut) (rdata ra : Byte) (y : Option Byte)
    (s : State) : State :=
  let sp : Option Byte := match c.spOp with
    | .none => none
    | .dec => some (BitVec.ofInt 8 st.newSp)
    | .inc => some (BitVec.ofInt 8 st.newSp)
  let wdata : Option Byte := match c.regWrite with
    | some .imm => some opb
    | some .alu => y
    | some .mem => some rdata
    | none => none
  { regs := registerFileWrite s.regs (wdata.map fun v => (portIndex opa, v)) sp
    pc := nextPc c.pcSel s.pc n ra rdata (isEqual s.fl)
    fl := flagsRegister s.fl c.flWe (y.getD s.fl)
    run := match c.halt with
      | true => .halted
      | false => s.run
    fault := s.fault
    out := match c.outEn with
      | true => s.out ++ [ra]
      | false => s.out
    mem := match c.memOp with
      | .writeReg => portWrite s.mem st.address ra
      | .writeRetAddr => portWrite s.mem st.address (BitVec.ofNat 8 (s.pc.toNat + 2))
      | .none => s.mem
      | .read => s.mem }

/-- The execute phase: the stack access and its fault, the read ports, the ALU, then the write-back. -/
def executeBlocks (instr opa opb : Byte) (c : Controls) (n : BitVec 2) (s : State) : State :=
  let spQ := s.regs[Config.spIndex]
  let rdata := portRead s.mem spQ
  let popped : Option Byte := match c.regWrite with
    | some .mem => if portIndex opa = Config.spIndex then some rdata else none
    | _ => none
  let st := stackPointerLogic spQ popped c.spOp
  match st.fault with
  | true => takeFault (some instr) (.stackBounds st.newSp) s
  | false =>
    let updatedSp : Option Byte := match c.spOp with
      | .dec => some (BitVec.ofInt 8 st.newSp)
      | .inc => none
      | .none => none
    let ra := readPort s.regs (portIndex opa) updatedSp
    let rb := readPort s.regs (portIndex opb) updatedSp
    match c.aluTag with
    | none => writeBack c n opa opb st rdata ra none s
    | some tag =>
      match alu tag ra rb with
      | .ok y => writeBack c n opa opb st rdata ra (some y) s
      | .error f => takeFault (some instr) f s

/-- One step of the seven blocks (R400, R411). -/
def datapath (s : State) : State :=
  let f := fetchUnit s.mem s.pc (s.run == .running)
  match f.faultAddr, f.instr, f.opa, f.opb with
  | some a, instr, _, _ => takeFault instr (.outOfBounds a.toNat) s
  | none, some instr, some opa, some opb =>
    let d := instructionDecoder instr
    if d.illegal then takeFault (some instr) (.unsupportedOperation instr) s
    else if d.controls.usesA && decide (7 < opa.toNat) then takeFault (some instr) (.illegalRegister opa) s
    else if d.controls.usesB && decide (7 < opb.toNat) then takeFault (some instr) (.illegalRegister opb) s
    else executeBlocks instr opa opb d.controls d.n s
  | none, _, _, _ => s

end Sys2Proof.Machine
end

