-- ==== Sys2Proof/Machine/HostPort.lean ====
section
/-! DEFINITION. What the host does with the CORE (spec/70_reset_and_hazards.md R709): reset, load, run, output and status. -/

namespace Sys2Proof.Machine

/-- The reset input: assertable in any state, always the same state (R700). -/
def assertReset (_ : State) : State := State.reset

/-- The bytes stored at consecutive addresses from `a`. -/
def storeFrom (m : Memory) (a : Nat) : List Byte → Memory
  | [] => m
  | b :: bs => storeFrom (m.write a b) (a + 1) bs

/-- The image stored from address 0, memory alone mutated (spec/20_memory.md R215). An image of more than 256 bytes is a LoadError
(R216). -/
def loadImage (bytes : List Byte) (s : State) : Host.Outcome State Fault Refusal :=
  if bytes.length ≤ Config.programMax then .next (s.setMem (storeFrom s.mem 0 bytes)) else .fault .loadError

/-- Boot (R702): reset, then the load; the state the CORE steps from. -/
def boot (bytes : List Byte) : Host.Outcome State Fault Refusal := loadImage bytes State.reset

/-- How far the host is with the CORE since the last reset (R702, R709, R711). It is the host's own record, no state of the CORE
(R100): whether a load was made does not show in the CORE's state, since an image of zeros leaves the reset state as it is. -/
inductive Session where
  /-- Right after reset: the CORE is in its reset state, no load was made and no step taken. -/
  | awaitingLoad
  /-- A load was made, or a step taken; the CORE's state. -/
  | started (s : State)
  deriving DecidableEq, Repr

/-- The CORE's state in a session. -/
def Session.core : Session → State
  | .awaitingLoad => State.reset
  | .started s => s

/-- The reset input: in any session, always the same one (R700). -/
def Session.reset (_ : Session) : Session := .awaitingLoad

/-- The answer of a move that starts the session, or goes on with it. -/
def Session.start : Host.Outcome State Fault Refusal → Host.Outcome Session Fault Refusal
  | .next s => .next (.started s)
  | .fault f => .fault f
  | .refused r => .refused r

/-- `load(bytes)` (R709): after reset, before the first step, once. A load when one was made or a step taken since the last reset
is not admitted (R711), whatever the CORE's state is. -/
def load (bytes : List Byte) : Session → Host.Outcome Session Fault Refusal
  | .awaitingLoad => Session.start (loadImage bytes State.reset)
  | .started _ => .refused .loadNotAfterReset

/-- A step in a session: the CORE's step. With no program loaded it is the step from the reset state (R702). -/
def Session.step (h : Session) : Host.Outcome Session Fault Refusal := Session.start (Machine.step h.core)

/-- What the host reads after the run beside the final state (R709): RUN as a field (R113) and FAULT. -/
structure Status where
  run : BitVec 2
  cause : Option (BitVec 3)
  fault : Option FaultRecord
  deriving DecidableEq, Repr

/-- The status (R709). -/
def State.status (s : State) : Status :=
  { run := s.run.code, cause := s.fault.map fun r => r.cause.code, fault := s.fault }

/-- The run under fuel (R704, R708): the first state whose RUN is not Running, or `none`, no result, when the fuel runs
out first. -/
def runToEnd : Nat → State → Option State
  | 0, s => if s.run = .running then none else some s
  | k + 1, s =>
    if s.run = .running then
      match step s with
      | .next t => runToEnd k t
      | .fault _ => none
      | .refused _ => none
    else some s

end Sys2Proof.Machine
end

