-- ==== Sys2Proof/Safety.lean ====
section
/-! DEFINITION. What counts as a legal state and a safe run, and the frame predicates the statements are written with. -/

namespace Sys2Proof.Machine

/-! ### Legal states -/

/-- FL's legal values (spec/10_state.md R110). -/
def FlLegal (fl : Byte) : Prop := fl = 0x00 ∨ fl = 0x01 ∨ fl = 0x02 ∨ fl = 0x04

/-- What a fault record of each cause can hold once the machine has only taken steps (spec/60_exceptions.md R600, R605): the first
failing fetch address is always 256, since pc never passes 256 (R108, R402); `AluUnsupported` is never recorded (R463). -/
def FaultRecord.Legal (r : FaultRecord) : Prop :=
  match r.cause with
  | .outOfBounds =>
      254 ≤ r.pc.toNat ∧ r.pc.toNat ≤ 256 ∧ r.info = 256 ∧ (r.instr.isSome = true ↔ r.pc.toNat ≤ 255)
  | .stackBounds =>
      r.pc.toNat ≤ 253 ∧
        ((r.info = -1 ∧ (r.instr = some 0x45 ∨ r.instr = some 0x50)) ∨
         (r.info = 256 ∧ (r.instr = some 0x46 ∨ r.instr = some 0x11)))
  | .unsupportedOperation =>
      r.pc.toNat ≤ 253 ∧ ∃ b : Byte, r.instr = some b ∧ decodeOp b = none ∧ r.info = (b.toNat : Int)
  | .illegalRegister =>
      r.pc.toNat ≤ 253 ∧ 8 ≤ r.info ∧ r.info ≤ 255 ∧
        ∃ op : Op, r.instr = some op.byte ∧ op ≠ .halt ∧ op ≠ .ret
  | .aluUnsupported => False

/-- The invariant of the machine: memory canonical, pc at most 256 (R108), FL legal (R110), FAULT held exactly while Faulted
(R114), and then a legal record of the address pc still holds (R604, R605). -/
structure State.Wf (s : State) : Prop where
  mem : s.mem.wf = true
  pc : s.pc.toNat ≤ 256
  fl : FlLegal s.fl
  fault : s.fault.isSome = true ↔ s.run = .faulted
  record : ∀ r, s.fault = some r → r.Legal ∧ r.pc = s.pc

/-! ### Runs -/

/-- The states that steps lead to. -/
inductive Reaches (s : State) : State → Prop where
  | refl : Reaches s s
  | step {t u : State} : Reaches s t → step t = .next u → Reaches s u

/-- A state of some run: reached from the state after some boot (spec/70_reset_and_hazards.md R702). -/
def Reachable (t : State) : Prop := ∃ bytes s, boot bytes = .next s ∧ Reaches s t

/-- The sessions that the host's loads and the CORE's steps lead to without a reset (R709, R711). -/
inductive Session.Reaches (h : Session) : Session → Prop where
  | refl : Reaches h h
  | load {u v : Session} (bytes : List Byte) : Reaches h u → Machine.load bytes u = .next v → Reaches h v
  | step {u v : Session} : Reaches h u → u.step = .next v → Reaches h v

/-- A run ends well in a Halted state (R704). -/
def EndsWell (s t : State) : Prop := Reaches s t ∧ t.run = .halted

/-- A safe run: no state it reaches is Faulted. -/
def Safe (s : State) : Prop := ∀ t, Reaches s t → t.run ≠ .faulted

/-! ### The instruction at pc -/

/-- The machine can fetch: RUN = Running and three bytes fit at pc (R402, R403). -/
def State.CanFetch (s : State) : Prop := s.run = .running ∧ s.pc.toNat ≤ 253

/-- The opcode byte at pc. -/
def State.opcodeAtPc (s : State) : Byte := s.byteAt s.pc.toNat

/-! ### Frames -/

/-- Every register but those named holds what it held. -/
def SameRegsExcept (rs : List (Fin 8)) (s t : State) : Prop := ∀ r : Fin 8, r ∉ rs → t.reg r = s.reg r

/-- Every byte of memory reads as before. -/
def SameMemory (s t : State) : Prop := ∀ a : Nat, t.byteAt a = s.byteAt a

/-- Every byte of memory but the one at `w` reads as before. -/
def SameMemoryExcept (w : Nat) (s t : State) : Prop := ∀ a : Nat, a ≠ w → t.byteAt a = s.byteAt a

/-- RUN, FAULT and OUT are unchanged. -/
def SameControl (s t : State) : Prop := t.run = s.run ∧ t.fault = s.fault ∧ t.out = s.out

/-- The state fault entry leaves, field by field (R604, R605): RUN and FAULT written, all else unchanged. -/
def FaultedFrom (s t : State) (cause : Cause) (instr : Option Byte) (info : Int) : Prop :=
  t.run = .faulted ∧
    (∃ r, t.fault = some r ∧ r.cause = cause ∧ r.pc = s.pc ∧ r.instr = instr ∧ r.info = info) ∧
    t.regs = s.regs ∧ t.pc = s.pc ∧ t.fl = s.fl ∧ t.out = s.out ∧ t.mem = s.mem

/-- `exec` answers the state of that fault entry. -/
def ExecFaults (i : Instr) (s : State) (cause : Cause) (instr : Byte) (info : Int) : Prop :=
  ∃ t, exec i s = .next t ∧ FaultedFrom s t cause (some instr) info

/-- The fault a state records: RUN = Faulted, and FAULT names the cause and its info. -/
def Raised (t : State) (cause : Cause) (info : Int) : Prop :=
  t.run = .faulted ∧ ∃ r, t.fault = some r ∧ r.cause = cause ∧ r.info = info

/-- `exec` raises that fault. -/
def ExecRaises (i : Instr) (s : State) (cause : Cause) (info : Int) : Prop :=
  ∃ t, exec i s = .next t ∧ Raised t cause info

end Sys2Proof.Machine
end

