-- ==== Sys2Proof/Certificates/Slice0/Obligations.lean ====
section
/-! DEFINITION. The statements about the machine, for the provers. Each docstring names the rule of spec/ it formalises, or the
decision of spec/92_eei_decisions.md or the log entry of notes/assumptions/ it rests on.

In the statements about an instruction the premise `s.pc.toNat ≤ 253` is the spec's own condition for an instruction to execute
(R402); a register operand byte names a register when it is below 8 (R105). An opcode
byte and the IllegalRegister of a bad operand stand, unmarked, in the rule of each instruction; the spec's choices behind them are
its decisions D1 and D4. What fault entry leaves (`FaultedFrom`, `ExecFaults`) also rests on its decisions D6 and D22; a statement
that only says which fault is raised (`Raised`, `ExecRaises`) does not. -/

open Sys2Proof Sys2Proof.Machine

/-! ### Encoding -/

/-- Words written out bit by bit from the encodings of R420, R440, R441, R461, R462, R480, R481, R500, R501, R520, R540 to R542
decode to the instruction they stand for. The byte values are the spec's decision D1. -/
def Obligations.SpecWordsDecode : Prop :=
  decode 0b00000001 0 0 = .ok .halt ∧
  decode 0b10000010 0b00000101 0b11111111 = .ok (.loadImmediate 5 255) ∧
  decode 0b01000111 0b00000111 0 = .ok (.printRegister 7) ∧
  decode 0b10100000 0b00000000 0b00000001 = .ok (.add 0 1) ∧
  decode 0b10100010 0b00000010 0b00000011 = .ok (.multiply 2 3) ∧
  decode 0b01000101 0b00000100 0 = .ok (.push 4) ∧
  decode 0b01000110 0b00000001 0 = .ok (.pop 1) ∧
  decode 0b01010000 0b00000001 0 = .ok (.call 1) ∧
  decode 0b00010001 0 0 = .ok .ret ∧
  decode 0b10100111 0b00000110 0b00000101 = .ok (.compare 6 5) ∧
  decode 0b01010100 0b00000011 0 = .ok (.jump 3) ∧
  decode 0b01010101 0b00000011 0 = .ok (.jumpIfEqual 3) ∧
  decode 0b01010110 0b00000011 0 = .ok (.jumpIfNotEqual 3)

/-- Decoding the bytes of any instruction, whatever bytes follow them, gives the instruction back; and its length is one more
than the operand count in its first byte. Rests on the opcode map, decision D1. -/
def Obligations.DecodeEncodeRoundTrip : Prop :=
  ∀ (i : Instr) (x y b0 b1 b2 : Byte), [b0, b1, b2] = (encode i ++ [x, y]).take 3 →
    decode b0 b1 b2 = .ok i ∧ (encode i).length = 1 + operandCount b0

/-- Where three bytes decode, encoding the instruction gives exactly its bytes back, 1 + AA of them: no byte of an instruction is
dropped and no two words are one instruction. Rests on the opcode map, decision D1. -/
def Obligations.EncodeDecodeRoundTrip : Prop :=
  ∀ (b0 b1 b2 : Byte) (i : Instr), decode b0 b1 b2 = .ok i →
    encode i = [b0, b1, b2].take (1 + operandCount b0)

/-- R404: Decode(instr) is the instruction whose byte equals instr, or raises UnsupportedOperation(instr); which of the two, and
which operation, the operand bytes do not decide. -/
def Obligations.DecodeMatchesOpcodeByteOnly : Prop :=
  ∀ b x y : Byte,
    (∀ op : Op, op.byte = b → decode b x y = .ok (op.instr x y) ∧ decodeOp b = some op) ∧
    ((∀ op : Op, op.byte ≠ b) → decode b x y = .error (.unsupportedOperation b) ∧ decodeOp b = none)

/-- R302: a byte with AA = 11 (0xC0..0xFF) names no instruction. -/
def Obligations.OperandCountThreeIsUnrecognized : Prop :=
  ∀ b x y : Byte, 0xC0 ≤ b.toNat →
    operandCount b = 3 ∧ decode b x y = .error (.unsupportedOperation b)

/-- R305: which operand bytes each instruction uses and which of them are register indices; an unused operand byte takes any
value. -/
def Obligations.UnusedOperandBytesAreIgnored : Prop :=
  ∀ x y : Byte,
    decode Op.halt.byte x y = .ok .halt ∧ decode Op.ret.byte x y = .ok .ret ∧
    decode Op.loadImmediate.byte x y = .ok (.loadImmediate x y) ∧
    decode Op.printRegister.byte x y = .ok (.printRegister x) ∧
    decode Op.push.byte x y = .ok (.push x) ∧ decode Op.pop.byte x y = .ok (.pop x) ∧
    decode Op.call.byte x y = .ok (.call x) ∧ decode Op.jump.byte x y = .ok (.jump x) ∧
    decode Op.jumpIfEqual.byte x y = .ok (.jumpIfEqual x) ∧
    decode Op.jumpIfNotEqual.byte x y = .ok (.jumpIfNotEqual x) ∧
    decode Op.add.byte x y = .ok (.add x y) ∧ decode Op.multiply.byte x y = .ok (.multiply x y) ∧
    decode Op.compare.byte x y = .ok (.compare x y) ∧
    Instr.halt.registerOperands = [] ∧ Instr.ret.registerOperands = [] ∧
    (Instr.loadImmediate x y).registerOperands = [x] ∧
    (∀ i ∈ [Instr.printRegister x, .push x, .pop x, .call x, .jump x, .jumpIfEqual x, .jumpIfNotEqual x],
      i.registerOperands = [x]) ∧
    (∀ i ∈ [Instr.add x y, .multiply x y, .compare x y], i.registerOperands = [x, y])

/-- The sub-fields of the opcode byte describe the instruction: AA its operand count, B that it uses the ALU, C that it sets pc
explicitly; and no two operations share a byte. The fields B and C are the spec's general knowledge (G3), the bytes its
decision D1. -/
def Obligations.OpcodeFieldsDescribeTheInstruction : Prop :=
  ∀ (op : Op) (x y : Byte),
    operandCount op.byte = (op.instr x y).operands.length ∧
    (op.byte.getLsbD 5 = true ↔ (controls op).aluTag.isSome = true) ∧
    (op.byte.getLsbD 4 = true ↔ (controls op).pcSel ≠ .seq ∧ (controls op).pcSel ≠ .hold) ∧
    (∀ op' : Op, op'.byte = op.byte → op' = op)

/-! ### Memory and fetch -/

/-- R201: `MemRead` gives the byte at an address in 0..255 and fails OutOfBounds on any other integer. -/
def Obligations.MemReadReturnsByteOrOutOfBounds : Prop :=
  ∀ (s : State) (a : Int),
    (a < 0 ∨ 255 < a → memRead s a = .error (.outOfBounds a)) ∧
    (∀ n : Nat, a = n → n ≤ 255 → memRead s a = .ok (s.byteAt n))

/-- `MemWrite` stores the low 8 bits at an address in 0..255, leaves every other byte and every other piece of state alone, keeps
the memory canonical, and fails OutOfBounds on any other integer. -/
def Obligations.MemWriteStoresLowByte : Prop :=
  ∀ (s : State) (a : Int) (v : Nat),
    (a < 0 ∨ 255 < a → memWrite s a v = .error (.outOfBounds a)) ∧
    (∀ n : Nat, a = n → n ≤ 255 → ∃ t, memWrite s a v = .ok t ∧
      (t.byteAt n).toNat = v % 256 ∧ SameMemoryExcept n s t ∧ SameControl s t ∧
      t.regs = s.regs ∧ t.pc = s.pc ∧ t.fl = s.fl ∧ (s.mem.wf = true → t.mem.wf = true))

/-- A stored byte is the byte the next fetch of that address reads, as opcode or as operand, with nothing in between. -/
def Obligations.FetchSeesTheStoredByte : Prop :=
  ∀ (s t : State) (w v : Nat), memWrite s w v = .ok t → t.pc.toNat ≤ 253 →
    ∃ f, fetch t = .ok f ∧
      (w = t.pc.toNat → f.instr.toNat = v % 256) ∧
      (w = t.pc.toNat + 1 → f.opa.toNat = v % 256) ∧
      (w = t.pc.toNat + 2 → f.opb.toNat = v % 256)

/-- When the three bytes at pc decode to an instruction, well formed or not, the step is `exec` of it in that state. The step
adds nothing around `exec`: each meaning writes pc itself. -/
def Obligations.StepRunsTheDecodedInstruction : Prop :=
  ∀ (s : State) (i : Instr), s.CanFetch →
    decode (s.byteAt s.pc.toNat) (s.byteAt (s.pc.toNat + 1)) (s.byteAt (s.pc.toNat + 2)) = .ok i →
    step s = exec i s

/-- An instruction placed where the next fetch reads it is the one the next step runs, and it is read from memory as
`decodeTableWord` reads it. Rests on log entry 6. -/
def Obligations.PlacedInstructionIsTheNextStep : Prop :=
  ∀ (s : State) (nbits w : Nat) (i : Instr), decodeTableWord nbits w = some i →
    (s.withFetchWord nbits w).CanFetch ∧
    step (s.withFetchWord nbits w) = exec i (s.withFetchWord nbits w) ∧
    (s.CanFetch → ∃ m, s.withFetchWord nbits w = s.setMem m)

/-! ### Faults -/

/-- A fetch with pc at 254 or more raises OutOfBounds with the first failing address, whatever the bytes there; instr is recorded
where the read at pc succeeded. Decisions D7, D19, D22. (pc above 256 is reached by no run; log entry 10.) -/
def Obligations.FetchPastTheEndFaults : Prop :=
  ∀ s : State, s.run = .running → 254 ≤ s.pc.toNat →
    ∃ t, step s = .next t ∧
      FaultedFrom s t .outOfBounds (if s.pc.toNat ≤ 255 then some s.opcodeAtPc else none)
        (if s.pc.toNat ≤ 256 then 256 else s.pc.toNat)

/-- Every opcode byte but the 13 of the opcode map raises UnsupportedOperation and records the byte. Decisions D1, D10, D16. -/
def Obligations.UnrecognizedOpcodeFaults : Prop :=
  ∀ s : State, s.CanFetch →
    s.opcodeAtPc.toNat ∉
      [0x01, 0x82, 0x47, 0xA0, 0xA2, 0x45, 0x46, 0x50, 0x11, 0xA7, 0x54, 0x55, 0x56] →
    ∃ t, step s = .next t ∧
      FaultedFrom s t .unsupportedOperation (some s.opcodeAtPc) s.opcodeAtPc.toNat

/-- An instruction raises IllegalRegister exactly when it is not well formed, with the first operand byte, operand_a first, that
names no register; the check comes before any other effect, on every path. Decision D4. -/
def Obligations.IllegalRegisterExactlyWhenIllFormed : Prop :=
  ∀ (i : Instr) (s : State),
    (∀ x, i.registerOperands.find? (fun o => decide (8 ≤ o.toNat)) = some x →
      i.wellFormed = false ∧ ExecFaults i s .illegalRegister i.op.byte x.toNat) ∧
    (i.registerOperands.find? (fun o => decide (8 ≤ o.toNat)) = none →
      i.wellFormed = true ∧ ∀ t r, exec i s = .next t → s.fault = none → t.fault = some r → r.cause ≠ .illegalRegister)

/-- A step reports one fault, the first in the order fetch, decode, operand_a, operand_b, stack. Decision D6. -/
def Obligations.FirstFaultInPhaseOrderIsReported : Prop :=
  ∀ (s : State) (i : Instr), s.run = .running →
    (254 ≤ s.pc.toNat → ∃ t r, step s = .next t ∧ t.fault = some r ∧ r.cause = .outOfBounds) ∧
    (s.pc.toNat ≤ 253 → decodeOp s.opcodeAtPc = none →
      ∃ t r, step s = .next t ∧ t.fault = some r ∧ r.cause = .unsupportedOperation) ∧
    (s.pc.toNat ≤ 253 →
      decode (s.byteAt s.pc.toNat) (s.byteAt (s.pc.toNat + 1)) (s.byteAt (s.pc.toNat + 2)) = .ok i →
      (∀ x, i.registerOperands.find? (fun o => decide (8 ≤ o.toNat)) = some x →
        ∃ t r, step s = .next t ∧ t.fault = some r ∧ r.cause = .illegalRegister ∧ r.info = x.toNat) ∧
      (i.wellFormed = true → ∀ t, step s = .next t → t.run = .faulted →
        ∃ r, t.fault = some r ∧ r.cause = .stackBounds))

/-- A faulting step changes RUN and FAULT and nothing else: the state is the one before the instruction, and the record names its
address and its opcode byte where that was fetched. Decisions D6, D22. -/
def Obligations.FaultingStepChangesNothingElse : Prop :=
  ∀ s t : State, s.run = .running → step s = .next t → t.run = .faulted →
    ∃ r, t = { s with run := .faulted, fault := some r } ∧ r.pc = s.pc ∧
      r.instr = if s.pc.toNat ≤ 255 then some s.opcodeAtPc else none

/-- FAULT is empty while RUN is Running or Halted, is written once, when RUN becomes Faulted, and steps never clear or rewrite it. It
is the legal record of the step (R600, R605; decision D22), whose causes rest on decisions D1, D4, D5, D7, D19 and on R108's
derivation, and its pc is that of the step (D22); the reset input clears it (D21, D22). -/
def Obligations.FaultRecordIsWrittenOnce : Prop :=
  (∀ s t : State, s.Wf → step s = .next t →
    (t.run ≠ .faulted → t.fault = none) ∧
    (s.run = .running → t.run = .faulted → s.fault = none ∧ ∃ r, t.fault = some r ∧ r.Legal ∧ r.pc = s.pc) ∧
    (∀ r, s.fault = some r → t.fault = some r)) ∧
  (∀ s : State, (assertReset s).fault = none)

/-- The run ends only by HALT, executed at pc, or by a fault. -/
def Obligations.RunLeavesRunningOnlyByHaltOrFault : Prop :=
  ∀ s t : State, s.run = .running → step s = .next t → t.run ≠ .running →
    (t.run = .halted ∧ s.CanFetch ∧ s.opcodeAtPc = 0x01) ∨ (t.run = .faulted ∧ t.fault.isSome = true)

/-- A Halted or Faulted machine stays as it is for any number of steps. That `step` answers the same state there is the model's
convention, log entry 1. -/
def Obligations.EndedRunsStayAsTheyAre : Prop :=
  ∀ (s : State) (n : Nat), s.run ≠ .running → core.run n s = .next s

/-! ### The instructions: encoding, completion, result, frame, faults -/

/-- HALT stops the run at its own address and changes nothing else. The unchanged pc is decision D8; that a further step changes
nothing is log entry 1. -/
def Obligations.HaltStopsTheRun : Prop :=
  ∀ s : State, s.pc.toNat ≤ 253 →
    encode .halt = [0x01] ∧
    ∃ t, exec .halt s = .next t ∧ t.run = .halted ∧ t.fault = s.fault ∧ t.out = s.out ∧ t.pc = s.pc ∧
      t.fl = s.fl ∧ SameRegsExcept [] s t ∧ SameMemory s t ∧ step t = .next t

/-- R440: LOAD_IMMEDIATE writes operand_b unchanged to x[operand_a], R7 included, and pc advances by 3; at pc = 253 the next fetch
raises OutOfBounds(256); an operand_a of 8 or more raises IllegalRegister. -/
def Obligations.LoadImmediateWritesTheOperand : Prop :=
  ∀ (s : State) (a b : Byte), s.pc.toNat ≤ 253 →
    encode (.loadImmediate a b) = [0x82, a, b] ∧
    (∀ ha : a.toNat < 8, ∃ t, exec (.loadImmediate a b) s = .next t ∧
      t.reg ⟨a.toNat, ha⟩ = b ∧ t.pc.toNat = s.pc.toNat + 3 ∧
      SameRegsExcept [⟨a.toNat, ha⟩] s t ∧ t.fl = s.fl ∧ SameControl s t ∧ SameMemory s t ∧
      (s.run = .running → s.pc.toNat = 253 → ∃ u, step t = .next u ∧ Raised u .outOfBounds 256)) ∧
    (8 ≤ a.toNat → ExecRaises (.loadImmediate a b) s .illegalRegister a.toNat)

/-- R441: PRINT_REGISTER appends x[operand_a] to OUT, SP for operand 7, and pc advances by 2; nothing else changes. -/
def Obligations.PrintRegisterAppendsToOut : Prop :=
  ∀ (s : State) (a : Byte), s.pc.toNat ≤ 253 →
    encode (.printRegister a) = [0x47, a] ∧
    (∀ ha : a.toNat < 8, ∃ t, exec (.printRegister a) s = .next t ∧
      t.out = s.out ++ [s.reg ⟨a.toNat, ha⟩] ∧ t.pc.toNat = s.pc.toNat + 2 ∧
      SameRegsExcept [] s t ∧ t.fl = s.fl ∧ t.run = s.run ∧ t.fault = s.fault ∧ SameMemory s t) ∧
    (8 ≤ a.toNat → ExecRaises (.printRegister a) s .illegalRegister a.toNat)

/-- R461: ADD writes the sum modulo 256 to x[operand_a]; FL keeps its value; pc advances by 3; the operands are checked in order. -/
def Obligations.AddWritesSumModulo256 : Prop :=
  ∀ (s : State) (a b : Byte), s.pc.toNat ≤ 253 →
    encode (.add a b) = [0xA0, a, b] ∧
    (∀ (ha : a.toNat < 8) (hb : b.toNat < 8), ∃ t, exec (.add a b) s = .next t ∧
      (t.reg ⟨a.toNat, ha⟩).toNat = ((s.reg ⟨a.toNat, ha⟩).toNat + (s.reg ⟨b.toNat, hb⟩).toNat) % 256 ∧
      t.pc.toNat = s.pc.toNat + 3 ∧
      SameRegsExcept [⟨a.toNat, ha⟩] s t ∧ t.fl = s.fl ∧ SameControl s t ∧ SameMemory s t) ∧
    (8 ≤ a.toNat → ExecRaises (.add a b) s .illegalRegister a.toNat) ∧
    (a.toNat < 8 → 8 ≤ b.toNat → ExecRaises (.add a b) s .illegalRegister b.toNat)

/-- R462: MULTIPLY writes the low 8 bits of the product to x[operand_a]; no flag is written; pc advances by 3; the operands are
checked in order. -/
def Obligations.MultiplyWritesLowByteOfProduct : Prop :=
  ∀ (s : State) (a b : Byte), s.pc.toNat ≤ 253 →
    encode (.multiply a b) = [0xA2, a, b] ∧
    (∀ (ha : a.toNat < 8) (hb : b.toNat < 8), ∃ t, exec (.multiply a b) s = .next t ∧
      (t.reg ⟨a.toNat, ha⟩).toNat = ((s.reg ⟨a.toNat, ha⟩).toNat * (s.reg ⟨b.toNat, hb⟩).toNat) % 256 ∧
      t.pc.toNat = s.pc.toNat + 3 ∧
      SameRegsExcept [⟨a.toNat, ha⟩] s t ∧ t.fl = s.fl ∧ SameControl s t ∧ SameMemory s t) ∧
    (8 ≤ a.toNat → ExecRaises (.multiply a b) s .illegalRegister a.toNat) ∧
    (a.toNat < 8 → 8 ≤ b.toNat → ExecRaises (.multiply a b) s .illegalRegister b.toNat)

/-- PUSH moves SP down by one and stores x[operand_a], read after the SP write, there; from SP = 0 it raises StackBounds(-1). The
fault is decision D5, the stored value of PUSH r7 (the decremented SP) decision D9. -/
def Obligations.PushStoresBelowSp : Prop :=
  ∀ (s : State) (a : Byte), s.pc.toNat ≤ 253 →
    encode (.push a) = [0x45, a] ∧
    (∀ ha : a.toNat < 8, 1 ≤ s.sp.toNat → ∃ t, exec (.push a) s = .next t ∧
      (t.sp.toNat : Int) = spDec s.sp ∧
      (∀ w : Nat, (w : Int) = spDec s.sp →
        t.byteAt w = t.reg ⟨a.toNat, ha⟩ ∧ SameMemoryExcept w s t) ∧
      t.pc.toNat = s.pc.toNat + 2 ∧ SameRegsExcept [7] s t ∧ t.fl = s.fl ∧ SameControl s t) ∧
    (a.toNat < 8 → s.sp.toNat = 0 → ExecFaults (.push a) s .stackBounds 0x45 (-1)) ∧
    (8 ≤ a.toNat → ExecFaults (.push a) s .illegalRegister 0x45 a.toNat)

/-- POP loads the byte at SP into x[operand_a], then moves SP up by one, read after that write: R7 is the old SP + 1, or, for POP
r7, the loaded byte + 1; where that is 256 it raises StackBounds(256) and writes nothing. Decisions D5, D9. -/
def Obligations.PopLoadsAtSp : Prop :=
  ∀ (s : State) (a : Byte), s.pc.toNat ≤ 253 →
    encode (.pop a) = [0x46, a] ∧
    (∀ ha : a.toNat < 8, a.toNat ≠ 7 → s.sp.toNat ≤ 254 → ∃ t, exec (.pop a) s = .next t ∧
      t.reg ⟨a.toNat, ha⟩ = s.byteAt s.sp.toNat ∧ t.sp.toNat = s.sp.toNat + 1 ∧
      t.pc.toNat = s.pc.toNat + 2 ∧
      SameRegsExcept [⟨a.toNat, ha⟩, 7] s t ∧ t.fl = s.fl ∧ SameControl s t ∧ SameMemory s t) ∧
    (a.toNat = 7 → (s.byteAt s.sp.toNat).toNat ≤ 254 → ∃ t, exec (.pop a) s = .next t ∧
      t.sp.toNat = (s.byteAt s.sp.toNat).toNat + 1 ∧ t.pc.toNat = s.pc.toNat + 2 ∧
      SameRegsExcept [7] s t ∧ t.fl = s.fl ∧ SameControl s t ∧ SameMemory s t) ∧
    (a.toNat < 7 → s.sp.toNat = 255 → ExecFaults (.pop a) s .stackBounds 0x46 256) ∧
    (a.toNat = 7 → (s.byteAt s.sp.toNat).toNat = 255 → ExecFaults (.pop a) s .stackBounds 0x46 256) ∧
    (8 ≤ a.toNat → ExecFaults (.pop a) s .illegalRegister 0x46 a.toNat)

/-- CALL moves SP down by one, stores pc + 2 there, untruncated, and jumps to x[operand_a], read after the SP write; from SP = 0 it
raises StackBounds(-1). Decisions D5, D9. -/
def Obligations.CallStoresReturnAddress : Prop :=
  ∀ (s : State) (a : Byte), s.pc.toNat ≤ 253 →
    encode (.call a) = [0x50, a] ∧
    (∀ ha : a.toNat < 8, 1 ≤ s.sp.toNat → ∃ t, exec (.call a) s = .next t ∧
      (t.sp.toNat : Int) = spDec s.sp ∧
      (∀ w : Nat, (w : Int) = spDec s.sp →
        (t.byteAt w).toNat = s.pc.toNat + 2 ∧ SameMemoryExcept w s t) ∧
      t.pc.toNat = (t.reg ⟨a.toNat, ha⟩).toNat ∧ SameRegsExcept [7] s t ∧ t.fl = s.fl ∧ SameControl s t) ∧
    (a.toNat < 8 → s.sp.toNat = 0 → ExecFaults (.call a) s .stackBounds 0x50 (-1)) ∧
    (8 ≤ a.toNat → ExecFaults (.call a) s .illegalRegister 0x50 a.toNat)

/-- RETURN jumps to the byte at SP and moves SP up by one; from SP = 255 it raises StackBounds(256). Decision D5. -/
def Obligations.ReturnJumpsToPoppedByte : Prop :=
  ∀ s : State, s.pc.toNat ≤ 253 →
    encode .ret = [0x11] ∧
    (s.sp.toNat ≤ 254 → ∃ t, exec .ret s = .next t ∧
      t.pc.toNat = (s.byteAt s.sp.toNat).toNat ∧ t.sp.toNat = s.sp.toNat + 1 ∧
      SameRegsExcept [7] s t ∧ t.fl = s.fl ∧ SameControl s t ∧ SameMemory s t) ∧
    (s.sp.toNat = 255 → ExecFaults .ret s .stackBounds 0x11 256)

/-- R520: COMPARE replaces FL by 0x02, 0x04 or 0x01 as the unsigned x[operand_a] is greater than, less than or equal to
x[operand_b]; no register changes; pc advances by 3; the operands are checked in order. -/
def Obligations.CompareWritesFl : Prop :=
  ∀ (s : State) (a b : Byte), s.pc.toNat ≤ 253 →
    encode (.compare a b) = [0xA7, a, b] ∧
    (∀ (ha : a.toNat < 8) (hb : b.toNat < 8), ∃ t, exec (.compare a b) s = .next t ∧
      ((s.reg ⟨b.toNat, hb⟩).toNat < (s.reg ⟨a.toNat, ha⟩).toNat → t.fl = 0x02) ∧
      ((s.reg ⟨a.toNat, ha⟩).toNat < (s.reg ⟨b.toNat, hb⟩).toNat → t.fl = 0x04) ∧
      ((s.reg ⟨a.toNat, ha⟩).toNat = (s.reg ⟨b.toNat, hb⟩).toNat → t.fl = 0x01) ∧
      t.pc.toNat = s.pc.toNat + 3 ∧ SameRegsExcept [] s t ∧ SameControl s t ∧ SameMemory s t) ∧
    (8 ≤ a.toNat → ExecRaises (.compare a b) s .illegalRegister a.toNat) ∧
    (a.toNat < 8 → 8 ≤ b.toNat → ExecRaises (.compare a b) s .illegalRegister b.toNat)

/-- R540: JUMP sets pc to x[operand_a], SP for operand 7, and changes nothing else, so that a jump to its own address leaves the
state as it is; an operand of 8 or more raises IllegalRegister. -/
def Obligations.JumpGoesToRegister : Prop :=
  ∀ (s : State) (a : Byte), s.pc.toNat ≤ 253 →
    encode (.jump a) = [0x54, a] ∧
    (∀ ha : a.toNat < 8, ∃ t, exec (.jump a) s = .next t ∧
      t.pc.toNat = (s.reg ⟨a.toNat, ha⟩).toNat ∧
      ((s.reg ⟨a.toNat, ha⟩).toNat = s.pc.toNat → t = s) ∧
      SameRegsExcept [] s t ∧ t.fl = s.fl ∧ SameControl s t ∧ SameMemory s t) ∧
    (8 ≤ a.toNat → ExecRaises (.jump a) s .illegalRegister a.toNat)

/-- JUMP_IF_EQUAL goes to x[operand_a] when FL is 0x01 and to pc + 2 otherwise, and changes nothing else; the operand is checked also
when the jump is not taken (decision D4). -/
def Obligations.JumpIfEqualTestsFl : Prop :=
  ∀ (s : State) (a : Byte), s.pc.toNat ≤ 253 →
    encode (.jumpIfEqual a) = [0x55, a] ∧
    (∀ ha : a.toNat < 8, ∃ t, exec (.jumpIfEqual a) s = .next t ∧
      (s.fl = 0x01 → t.pc.toNat = (s.reg ⟨a.toNat, ha⟩).toNat) ∧
      (s.fl ≠ 0x01 → t.pc.toNat = s.pc.toNat + 2) ∧
      SameRegsExcept [] s t ∧ t.fl = s.fl ∧ SameControl s t ∧ SameMemory s t) ∧
    (8 ≤ a.toNat → ExecFaults (.jumpIfEqual a) s .illegalRegister 0x55 a.toNat)

/-- JUMP_IF_NOT_EQUAL goes to x[operand_a] when FL is not 0x01, the cleared FL included, and to pc + 2 otherwise, and changes nothing
else; the operand is checked also when the jump is not taken (decision D4). -/
def Obligations.JumpIfNotEqualTestsFl : Prop :=
  ∀ (s : State) (a : Byte), s.pc.toNat ≤ 253 →
    encode (.jumpIfNotEqual a) = [0x56, a] ∧
    (∀ ha : a.toNat < 8, ∃ t, exec (.jumpIfNotEqual a) s = .next t ∧
      (s.fl ≠ 0x01 → t.pc.toNat = (s.reg ⟨a.toNat, ha⟩).toNat) ∧
      (s.fl = 0x01 → t.pc.toNat = s.pc.toNat + 2) ∧
      SameRegsExcept [] s t ∧ t.fl = s.fl ∧ SameControl s t ∧ SameMemory s t) ∧
    (8 ≤ a.toNat → ExecFaults (.jumpIfNotEqual a) s .illegalRegister 0x56 a.toNat)

/-- R408: where each instruction that does not fault takes the next pc from. CALL's register is read after its SP update. -/
def Obligations.NextPcComesFromTheTable : Prop :=
  ∀ (i : Instr) (s t : State), s.run = .running → s.pc.toNat ≤ 253 → exec i s = .next t → t.run ≠ .faulted →
    match i with
    | .halt => t.pc = s.pc
    | .loadImmediate _ _ | .printRegister _ | .add _ _ | .multiply _ _ | .push _ | .pop _ | .compare _ _ =>
        t.pc.toNat = s.pc.toNat + 1 + operandCount i.op.byte
    | .call a | .jump a => ∃ ha : a.toNat < 8, t.pc.toNat = (t.reg ⟨a.toNat, ha⟩).toNat
    | .ret => t.pc.toNat = (s.byteAt s.sp.toNat).toNat
    | .jumpIfEqual a => ∃ ha : a.toNat < 8,
        t.pc.toNat = if s.fl = 0x01 then (t.reg ⟨a.toNat, ha⟩).toNat else s.pc.toNat + 2
    | .jumpIfNotEqual a => ∃ ha : a.toNat < 8,
        t.pc.toNat = if s.fl = 0x01 then s.pc.toNat + 2 else (t.reg ⟨a.toNat, ha⟩).toNat

/-! ### Two instructions together -/

/-- PUSH then POP on the same register, R7 included, gives every register back, SP among them. Rests on R483's derivation from
decisions D5 and D9. -/
def Obligations.PushThenPopRestoresRegisters : Prop :=
  ∀ (s : State) (a : Byte), a.toNat < 8 → 1 ≤ s.sp.toNat → s.pc.toNat ≤ 251 →
    ∃ t u, exec (.push a) s = .next t ∧ exec (.pop a) t = .next u ∧
      u.regs = s.regs ∧ u.pc.toNat = s.pc.toNat + 4 ∧ u.fl = s.fl ∧ SameControl s u

/-- After a CALL, a RETURN from any state that has SP and the byte at SP as the CALL left them resumes right after the CALL with SP
as it was before it. Rests on R502's derivation; that state may have any pc, since `exec` does not check it (log entry 7). -/
def Obligations.ReturnResumesAfterCall : Prop :=
  ∀ (s t u : State) (a : Byte), a.toNat < 8 → 1 ≤ s.sp.toNat → s.pc.toNat ≤ 253 →
    exec (.call a) s = .next t → u.sp = t.sp → u.byteAt u.sp.toNat = t.byteAt t.sp.toNat →
    ∃ v, exec .ret u = .next v ∧ v.pc.toNat = s.pc.toNat + 2 ∧ v.sp = s.sp

/-! ### Rules of the whole machine -/

/-- Every step of the machine, and every instruction in every state, answers a next state: no fault outcome and no refusal (log
entry 2: a fault of the CORE is a next state, Faulted). -/
def Obligations.EveryStepAnswersANextState : Prop :=
  (∀ s : State, ∃ t, step s = .next t) ∧ (∀ (i : Instr) (s : State), ∃ t, exec i s = .next t)

/-- The invariant holds right after reset. -/
def Obligations.ResetIsWellFormed : Prop := State.reset.Wf

/-- Every step keeps the invariant: canonical memory, pc at most 256, a legal FL, FAULT held exactly while Faulted with a legal
record of the address pc holds. Rests on R108's and R110's derivations and decisions D2, D6, D7, D22. -/
def Obligations.StepKeepsWellFormed : Prop :=
  ∀ s t : State, s.Wf → step s = .next t → t.Wf

/-- Every state of every run, from any program image that can be loaded, meets the invariant. -/
def Obligations.ReachableStatesAreWellFormed : Prop :=
  ∀ t : State, Reachable t → t.Wf

/-- Only COMPARE writes FL, always with one of the three codes, so that FL is never cleared again before reset. Rests on R111's
derivation and decision D2. -/
def Obligations.FlIsWrittenByCompareOnly : Prop :=
  ∀ s t : State, step s = .next t →
    (t.fl ≠ s.fl → s.CanFetch ∧ s.opcodeAtPc = 0xA7) ∧
    (t.fl = s.fl ∨ t.fl = 0x01 ∨ t.fl = 0x02 ∨ t.fl = 0x04) ∧
    (s.fl ≠ 0x00 → t.fl ≠ 0x00)

/-- FL is read only through its equality test: two machines that differ only in FL, neither of them Equal, step to machines that
differ at most in FL, and only where FL was not just written. Rests on R112's derivation. -/
def Obligations.OnlyEqualityOfFlIsRead : Prop :=
  ∀ (s t : State) (f : Byte), s.fl ≠ 0x01 → f ≠ 0x01 → step s = .next t →
    step (s.setFl f) = .next (t.setFl f) ∧ t.fl = s.fl ∨
    step (s.setFl f) = .next t ∧ s.opcodeAtPc = 0xA7

/-- Only PRINT_REGISTER writes OUT, and it appends the one value of the register its operand names. -/
def Obligations.OutIsWrittenByPrintRegisterOnly : Prop :=
  ∀ s t : State, step s = .next t →
    t.out = s.out ∨
    (s.CanFetch ∧ s.opcodeAtPc = 0x47 ∧
      ∃ ha : (s.byteAt (s.pc.toNat + 1)).toNat < 8, t.out = s.out ++ [s.reg ⟨(s.byteAt (s.pc.toNat + 1)).toNat, ha⟩])

/-- Nothing reads OUT back: with another OUT the same step appends the same bytes and does everything else the same. -/
def Obligations.OutIsNeverReadBack : Prop :=
  ∀ (s t : State) (o : List Byte), step s = .next t →
    ∃ appended, t.out = s.out ++ appended ∧
      step { s with out := o } = .next { t with out := o ++ appended }

/-- Only PUSH and CALL write memory, and only the byte just below SP. -/
def Obligations.MemoryIsWrittenByPushAndCallOnly : Prop :=
  ∀ (s t : State) (a : Nat), step s = .next t → t.byteAt a ≠ s.byteAt a →
    s.CanFetch ∧ (s.opcodeAtPc = 0x45 ∨ s.opcodeAtPc = 0x50) ∧ (a : Int) = spDec s.sp

/-- Which instructions write which register: the destination operand of LOAD_IMMEDIATE, ADD, MULTIPLY and POP, and R7 in PUSH, POP,
CALL and RETURN. Rests on R103's derivation. -/
def Obligations.RegistersAreWrittenByTheTable : Prop :=
  ∀ (s t : State) (r : Fin 8), step s = .next t → t.reg r ≠ s.reg r →
    s.CanFetch ∧
    ((s.opcodeAtPc.toNat ∈ [0x82, 0xA0, 0xA2, 0x46] ∧ (s.byteAt (s.pc.toNat + 1)).toNat = r.val) ∨
     (s.opcodeAtPc.toNat ∈ [0x45, 0x46, 0x50, 0x11] ∧ r = 7))

/-- `alu_simple` computes the sum and product modulo 256 and the code of the unsigned comparison, and raises AluUnsupported on a tag
outside the set, which the decoder never issues and no step ever records. Decisions D2, D12, D18, D20; the
tag's form is log entry 8. -/
def Obligations.AluComputesAndItsFaultIsUnreachable : Prop :=
  (∀ a b : Byte, ∃ y z, alu .add a b = .ok y ∧ y.toNat = (a.toNat + b.toNat) % 256 ∧
    alu .mul a b = .ok z ∧ z.toNat = (a.toNat * b.toNat) % 256) ∧
  (∀ a b : Byte, ∃ c, alu .cmp a b = .ok c ∧
    (b.toNat < a.toNat → c = 0x02) ∧ (a.toNat < b.toNat → c = 0x04) ∧ (a.toNat = b.toNat → c = 0x01)) ∧
  (∀ (a b : Byte) (k : Nat), alu (.unsupported k) a b = .error (.aluUnsupported k)) ∧
  (∀ (op : Op) (k : Nat), (controls op).aluTag ≠ some (.unsupported k)) ∧
  (∀ (s t : State) (r : FaultRecord), s.fault = none → step s = .next t → t.fault = some r → r.cause ≠ .aluUnsupported)

/-- The seven blocks of the port tables, composed, compute in every state exactly the step that the instruction rules give. The ports
are decision D12, their form as functions log entry 11. -/
def Obligations.DatapathRefinesStep : Prop :=
  ∀ s : State, step s = .next (datapath s)

/-! ### Reset, boot and the end of a run -/

/-- R117, R119, R120: R0..R6, pc and FL right after reset. -/
def Obligations.ResetClearsRegistersPcAndFl : Prop :=
  (∀ r : Fin 8, r.val ≤ 6 → State.reset.reg r = 0x00) ∧ State.reset.pc = 0 ∧ State.reset.fl = 0x00

/-- SP is 0xF4 right after reset (decision D3), RUN is Running, FAULT and OUT are empty (decision D22), and the reset input gives the
same state from any state (decision D21). -/
def Obligations.ResetSetsSpAndRunState : Prop :=
  State.reset.sp = 0xF4 ∧ State.reset.run = .running ∧ State.reset.fault = none ∧ State.reset.out = [] ∧
  ∀ s : State, assertReset s = State.reset

/-- R123, R215: reset zeroes every cell; the load copies the program from address 0, leaves the cells it does not cover 0, and writes
no register, pc, FL or output. -/
def Obligations.BootLoadsTheProgramAtZero : Prop :=
  (∀ a : Nat, State.reset.byteAt a = 0x00) ∧
  ∀ bytes : List Byte, bytes.length ≤ 256 → ∃ s, boot bytes = .next s ∧
    (∀ (i : Nat) (h : i < bytes.length), s.byteAt i = bytes[i]) ∧
    (∀ i : Nat, bytes.length ≤ i → s.byteAt i = 0x00) ∧
    s = State.reset.setMem s.mem

/-- Right after reset an image of at most 256 bytes loads, and the CORE is then in the state boot leaves; a longer image is a
LoadError (decision D15). A load made after a load or a step is refused (decision D15; the session is log entry 5). -/
def Obligations.LoadRefusesLongImagesAndLaterLoads : Prop :=
  (∀ bytes : List Byte, bytes.length ≤ 256 →
    ∃ s, boot bytes = .next s ∧ load bytes .awaitingLoad = .next (.started s)) ∧
  (∀ bytes : List Byte, 256 < bytes.length →
    boot bytes = .fault .loadError ∧ load bytes .awaitingLoad = .fault .loadError) ∧
  (∀ (bytes : List Byte) (s : State), load bytes (.started s) = .refused .loadNotAfterReset)

/-- With no program loaded the first step raises UnsupportedOperation(0x00) at pc = 0. Rests on R702's derivation. -/
def Obligations.EmptyMachineFaultsAtOnce : Prop :=
  ∃ s t, boot [] = .next s ∧ step s = .next t ∧ FaultedFrom s t .unsupportedOperation (some 0x00) 0x00 ∧ t.pc = 0

/-- R708: the executor gives no result, never a Halted or Faulted one, under any fuel after which the run is still Running; a
result it gives is never Running; and a JUMP to itself is Running for ever and has no result under any fuel. -/
def Obligations.OutOfFuelIsNoResult : Prop :=
  (∀ (n : Nat) (s t : State), core.run n s = .next t → t.run = .running → runToEnd n s = none) ∧
  (∀ (n : Nat) (s t : State), runToEnd n s = some t → t.run ≠ .running) ∧
  (∀ (s : State) (ha : (s.byteAt (s.pc.toNat + 1)).toNat < 8), s.CanFetch → s.opcodeAtPc = Op.jump.byte →
    (s.reg ⟨(s.byteAt (s.pc.toNat + 1)).toNat, ha⟩).toNat = s.pc.toNat →
    ∀ n : Nat, core.run n s = .next s ∧ s.run = .running ∧ runToEnd n s = none)

/-- The executor under fuel finds a final state exactly when the run reaches it, and the run has at most one. -/
def Obligations.RunToEndIsReachability : Prop :=
  ∀ s t : State, (∃ n, runToEnd n s = some t) ↔ (Reaches s t ∧ t.run ≠ .running)

/-- A run that ends well was never Faulted on the way and never will be. -/
def Obligations.RunThatEndsWellIsSafe : Prop :=
  ∀ s t : State, EndsWell s t → Safe s

/-! ### The host's session -/

/-- One program is loaded per reset: after any load that is made, or any step, the program of zeros and the empty one included,
whatever loads are tried and steps taken since, every load is refused until the reset, which admits one again. Rests on R711's
decision D15; the session is log entry 5. -/
def Obligations.OneProgramIsLoadedPerReset : Prop :=
  ∀ (h u v : Session) (bytes : List Byte),
    (load bytes h = .next u ∨ h.step = .next u) → u.Reaches v →
    (∀ bytes', load bytes' v = .refused .loadNotAfterReset) ∧
    (∀ bytes', bytes'.length ≤ 256 → ∃ w, load bytes' v.reset = .next w)

/-- Whatever the host does in its session, the CORE's state is one of a run from boot, and so the invariant of the machine holds of
it. The session is log entry 5. -/
def Obligations.SessionStatesAreReachable : Prop :=
  ∀ h v : Session, h.reset.Reaches v → Reachable v.core ∧ v.core.Wf
end

