-- ==== Sys2Proof/Laws/State.lean ====
section
/-! SUPPORT. The state's small lemmas: what each update does to each field, one lemma per field per update, so that no later
proof unfolds an update. -/

namespace Sys2Proof.Machine

variable (s : State)

/-! ### setReg -/

@[simp] theorem setReg_regs (r : Fin 8) (v : Byte) : (s.setReg r v).regs = s.regs.set r v := rfl
@[simp] theorem setReg_pc (r : Fin 8) (v : Byte) : (s.setReg r v).pc = s.pc := rfl
@[simp] theorem setReg_fl (r : Fin 8) (v : Byte) : (s.setReg r v).fl = s.fl := rfl
@[simp] theorem setReg_run (r : Fin 8) (v : Byte) : (s.setReg r v).run = s.run := rfl
@[simp] theorem setReg_fault (r : Fin 8) (v : Byte) : (s.setReg r v).fault = s.fault := rfl
@[simp] theorem setReg_out (r : Fin 8) (v : Byte) : (s.setReg r v).out = s.out := rfl
@[simp] theorem setReg_mem (r : Fin 8) (v : Byte) : (s.setReg r v).mem = s.mem := rfl

/-! ### setPc -/

@[simp] theorem setPc_regs (p : PcWord) : (s.setPc p).regs = s.regs := rfl
@[simp] theorem setPc_pc (p : PcWord) : (s.setPc p).pc = p := rfl
@[simp] theorem setPc_fl (p : PcWord) : (s.setPc p).fl = s.fl := rfl
@[simp] theorem setPc_run (p : PcWord) : (s.setPc p).run = s.run := rfl
@[simp] theorem setPc_fault (p : PcWord) : (s.setPc p).fault = s.fault := rfl
@[simp] theorem setPc_out (p : PcWord) : (s.setPc p).out = s.out := rfl
@[simp] theorem setPc_mem (p : PcWord) : (s.setPc p).mem = s.mem := rfl

/-! ### advance -/

@[simp] theorem advance_regs (k : Nat) : (s.advance k).regs = s.regs := rfl
@[simp] theorem advance_pc (k : Nat) : (s.advance k).pc = BitVec.ofNat 9 (s.pc.toNat + k) := rfl
@[simp] theorem advance_fl (k : Nat) : (s.advance k).fl = s.fl := rfl
@[simp] theorem advance_run (k : Nat) : (s.advance k).run = s.run := rfl
@[simp] theorem advance_fault (k : Nat) : (s.advance k).fault = s.fault := rfl
@[simp] theorem advance_out (k : Nat) : (s.advance k).out = s.out := rfl
@[simp] theorem advance_mem (k : Nat) : (s.advance k).mem = s.mem := rfl

/-! ### jumpTo -/

@[simp] theorem jumpTo_regs (v : Byte) : (s.jumpTo v).regs = s.regs := rfl
@[simp] theorem jumpTo_pc (v : Byte) : (s.jumpTo v).pc = v.setWidth 9 := rfl
@[simp] theorem jumpTo_fl (v : Byte) : (s.jumpTo v).fl = s.fl := rfl
@[simp] theorem jumpTo_run (v : Byte) : (s.jumpTo v).run = s.run := rfl
@[simp] theorem jumpTo_fault (v : Byte) : (s.jumpTo v).fault = s.fault := rfl
@[simp] theorem jumpTo_out (v : Byte) : (s.jumpTo v).out = s.out := rfl
@[simp] theorem jumpTo_mem (v : Byte) : (s.jumpTo v).mem = s.mem := rfl

/-! ### setFl -/

@[simp] theorem setFl_regs (v : Byte) : (s.setFl v).regs = s.regs := rfl
@[simp] theorem setFl_pc (v : Byte) : (s.setFl v).pc = s.pc := rfl
@[simp] theorem setFl_fl (v : Byte) : (s.setFl v).fl = v := rfl
@[simp] theorem setFl_run (v : Byte) : (s.setFl v).run = s.run := rfl
@[simp] theorem setFl_fault (v : Byte) : (s.setFl v).fault = s.fault := rfl
@[simp] theorem setFl_out (v : Byte) : (s.setFl v).out = s.out := rfl
@[simp] theorem setFl_mem (v : Byte) : (s.setFl v).mem = s.mem := rfl

/-! ### setRun -/

@[simp] theorem setRun_regs (r : RunState) : (s.setRun r).regs = s.regs := rfl
@[simp] theorem setRun_pc (r : RunState) : (s.setRun r).pc = s.pc := rfl
@[simp] theorem setRun_fl (r : RunState) : (s.setRun r).fl = s.fl := rfl
@[simp] theorem setRun_run (r : RunState) : (s.setRun r).run = r := rfl
@[simp] theorem setRun_fault (r : RunState) : (s.setRun r).fault = s.fault := rfl
@[simp] theorem setRun_out (r : RunState) : (s.setRun r).out = s.out := rfl
@[simp] theorem setRun_mem (r : RunState) : (s.setRun r).mem = s.mem := rfl

/-! ### emit -/

@[simp] theorem emit_regs (v : Byte) : (s.emit v).regs = s.regs := rfl
@[simp] theorem emit_pc (v : Byte) : (s.emit v).pc = s.pc := rfl
@[simp] theorem emit_fl (v : Byte) : (s.emit v).fl = s.fl := rfl
@[simp] theorem emit_run (v : Byte) : (s.emit v).run = s.run := rfl
@[simp] theorem emit_fault (v : Byte) : (s.emit v).fault = s.fault := rfl
@[simp] theorem emit_out (v : Byte) : (s.emit v).out = s.out ++ [v] := rfl
@[simp] theorem emit_mem (v : Byte) : (s.emit v).mem = s.mem := rfl

/-! ### setMem -/

@[simp] theorem setMem_regs (m : Memory) : (s.setMem m).regs = s.regs := rfl
@[simp] theorem setMem_pc (m : Memory) : (s.setMem m).pc = s.pc := rfl
@[simp] theorem setMem_fl (m : Memory) : (s.setMem m).fl = s.fl := rfl
@[simp] theorem setMem_run (m : Memory) : (s.setMem m).run = s.run := rfl
@[simp] theorem setMem_fault (m : Memory) : (s.setMem m).fault = s.fault := rfl
@[simp] theorem setMem_out (m : Memory) : (s.setMem m).out = s.out := rfl
@[simp] theorem setMem_mem (m : Memory) : (s.setMem m).mem = m := rfl

/-! ### takeFault -/

@[simp] theorem takeFault_regs (i : Option Byte) (f : CoreFault) : (takeFault i f s).regs = s.regs := rfl
@[simp] theorem takeFault_pc (i : Option Byte) (f : CoreFault) : (takeFault i f s).pc = s.pc := rfl
@[simp] theorem takeFault_fl (i : Option Byte) (f : CoreFault) : (takeFault i f s).fl = s.fl := rfl
@[simp] theorem takeFault_run (i : Option Byte) (f : CoreFault) : (takeFault i f s).run = .faulted := rfl
@[simp] theorem takeFault_fault (i : Option Byte) (f : CoreFault) : (takeFault i f s).fault = some ⟨f.cause, s.pc, i, f.info⟩ := rfl
@[simp] theorem takeFault_out (i : Option Byte) (f : CoreFault) : (takeFault i f s).out = s.out := rfl
@[simp] theorem takeFault_mem (i : Option Byte) (f : CoreFault) : (takeFault i f s).mem = s.mem := rfl

/-! ### The accessors over the updates -/

theorem reg_eq (r : Fin 8) : s.reg r = s.regs[r] := rfl

theorem byteAt_eq (a : Nat) : s.byteAt a = s.mem.read a := rfl

theorem sp_eq : s.sp = s.reg 7 := rfl

theorem reg_setReg (r q : Fin 8) (v : Byte) : (s.setReg r v).reg q = if q = r then v else s.reg q := by
  simp only [reg_eq, setReg_regs, Fin.getElem_fin, Vector.getElem_set, Fin.ext_iff, eq_comm]

@[simp] theorem reg_setReg_self (r : Fin 8) (v : Byte) : (s.setReg r v).reg r = v := by simp [reg_setReg]

@[simp] theorem setReg_sp_self (v : Byte) : (s.setReg Config.spIndex v).sp = v := reg_setReg_self s _ v

theorem reg_setReg_of_ne {r q : Fin 8} (h : q ≠ r) (v : Byte) : (s.setReg r v).reg q = s.reg q := by
  simp [reg_setReg, h]

@[simp] theorem setReg_byteAt (r : Fin 8) (v : Byte) (a : Nat) : (s.setReg r v).byteAt a = s.byteAt a := rfl
@[simp] theorem setPc_reg (p : PcWord) (q : Fin 8) : (s.setPc p).reg q = s.reg q := rfl
@[simp] theorem setPc_sp (p : PcWord) : (s.setPc p).sp = s.sp := rfl
@[simp] theorem setPc_byteAt (p : PcWord) (a : Nat) : (s.setPc p).byteAt a = s.byteAt a := rfl
@[simp] theorem advance_reg (k : Nat) (q : Fin 8) : (s.advance k).reg q = s.reg q := rfl
@[simp] theorem advance_sp (k : Nat) : (s.advance k).sp = s.sp := rfl
@[simp] theorem advance_byteAt (k : Nat) (a : Nat) : (s.advance k).byteAt a = s.byteAt a := rfl
@[simp] theorem jumpTo_reg (v : Byte) (q : Fin 8) : (s.jumpTo v).reg q = s.reg q := rfl
@[simp] theorem jumpTo_sp (v : Byte) : (s.jumpTo v).sp = s.sp := rfl
@[simp] theorem jumpTo_byteAt (v : Byte) (a : Nat) : (s.jumpTo v).byteAt a = s.byteAt a := rfl
@[simp] theorem setFl_reg (v : Byte) (q : Fin 8) : (s.setFl v).reg q = s.reg q := rfl
@[simp] theorem setFl_sp (v : Byte) : (s.setFl v).sp = s.sp := rfl
@[simp] theorem setFl_byteAt (v : Byte) (a : Nat) : (s.setFl v).byteAt a = s.byteAt a := rfl
@[simp] theorem setRun_reg (r : RunState) (q : Fin 8) : (s.setRun r).reg q = s.reg q := rfl
@[simp] theorem setRun_sp (r : RunState) : (s.setRun r).sp = s.sp := rfl
@[simp] theorem setRun_byteAt (r : RunState) (a : Nat) : (s.setRun r).byteAt a = s.byteAt a := rfl
@[simp] theorem emit_reg (v : Byte) (q : Fin 8) : (s.emit v).reg q = s.reg q := rfl
@[simp] theorem emit_sp (v : Byte) : (s.emit v).sp = s.sp := rfl
@[simp] theorem emit_byteAt (v : Byte) (a : Nat) : (s.emit v).byteAt a = s.byteAt a := rfl
@[simp] theorem setMem_reg (m : Memory) (q : Fin 8) : (s.setMem m).reg q = s.reg q := rfl
@[simp] theorem setMem_sp (m : Memory) : (s.setMem m).sp = s.sp := rfl
@[simp] theorem takeFault_reg (i : Option Byte) (f : CoreFault) (q : Fin 8) : (takeFault i f s).reg q = s.reg q := rfl
@[simp] theorem takeFault_sp (i : Option Byte) (f : CoreFault) : (takeFault i f s).sp = s.sp := rfl
@[simp] theorem takeFault_byteAt (i : Option Byte) (f : CoreFault) (a : Nat) : (takeFault i f s).byteAt a = s.byteAt a := rfl
@[simp] theorem setMem_byteAt (m : Memory) (a : Nat) : (s.setMem m).byteAt a = m.read a := rfl

/-- Two states whose registers read the same have the same register file. -/
theorem regs_ext {s t : State} (h : ∀ r, t.reg r = s.reg r) : t.regs = s.regs := by
  apply Vector.ext
  intro i hi
  simpa only [reg_eq, Fin.getElem_fin] using h ⟨i, hi⟩

/-- Two states with the same fields are one state. -/
theorem state_ext {s t : State} (hr : t.regs = s.regs) (hp : t.pc = s.pc) (hf : t.fl = s.fl) (hn : t.run = s.run)
    (hx : t.fault = s.fault) (ho : t.out = s.out) (hm : t.mem = s.mem) : t = s := by
  cases s; cases t; simp_all

end Sys2Proof.Machine
end

