-- ==== Sys2Proof/Laws/Memory.lean ====
section
/-! SUPPORT. The laws of memory: a read after a write, the canonical form kept by every memory operation, and equal reads of
canonical memories making equal memories. -/

namespace Sys2Proof.Machine

/-! ### A read after a write -/

@[simp] theorem read_nil (a : Nat) : Memory.read [] a = unlistedByte := rfl

theorem read_cons (b : Nat) (w : Byte) (m : Memory) (a : Nat) :
    Memory.read ((b, w) :: m) a = if a = b then w else m.read a := rfl

theorem read_dropCell (m : Memory) (a b : Nat) :
    (m.dropCell a).read b = if b = a then unlistedByte else m.read b := by
  induction m with
  | nil => simp [Memory.dropCell]
  | cons c m ih =>
    obtain ⟨d, w⟩ := c
    simp only [Memory.dropCell]
    split <;> simp only [read_cons, ih] <;> split <;> (try split) <;> first | rfl | omega

theorem read_putCell {m : Memory} {a : Nat} (v : Byte) (b : Nat)
    (hm : (m.putCell a v).read a = v) :
    (m.putCell a v).read b = if b = a then v else m.read b := by
  by_cases h : b = a
  · rw [if_pos h, h, hm]
  · rw [if_neg h]
    clear hm
    induction m with
    | nil => simp [Memory.putCell, read_cons, h]
    | cons c m ih =>
      obtain ⟨d, w⟩ := c
      simp only [Memory.putCell]
      split <;> simp only [read_cons, h, if_false, ih]

/-- The byte put reads back where no entry of the address stood before. -/
theorem read_putCell_dropCell (m : Memory) (a : Nat) (v : Byte) : ((m.dropCell a).putCell a v).read a = v := by
  induction m with
  | nil => simp [Memory.dropCell, Memory.putCell, read_cons]
  | cons c m ih =>
    obtain ⟨d, w⟩ := c
    simp only [Memory.dropCell]
    split
    · exact ih
    · next hd =>
      simp only [Memory.putCell]
      split
      · simp [read_cons]
      · rw [read_cons, if_neg (Ne.symm hd), ih]

/-- The byte written reads back, and every other address reads as before. -/
theorem read_write (m : Memory) (a : Nat) (v : Byte) (b : Nat) :
    (m.write a v).read b = if b = a then v else m.read b := by
  unfold Memory.write
  split
  · next h => rw [read_dropCell, h]
  · rw [read_putCell v b (read_putCell_dropCell m a v), read_dropCell]
    split <;> rfl

@[simp] theorem read_write_self (m : Memory) (a : Nat) (v : Byte) : (m.write a v).read a = v := by
  simp [read_write]

theorem read_write_of_ne (m : Memory) {a b : Nat} (h : b ≠ a) (v : Byte) : (m.write a v).read b = m.read b := by
  simp [read_write, h]

/-! ### The canonical form -/

theorem wfFrom_cons {lo a : Nat} {v : Byte} {m : Memory} :
    Memory.wfFrom lo ((a, v) :: m) = true ↔
      lo ≤ a ∧ a < 256 ∧ v ≠ unlistedByte ∧ Memory.wfFrom (a + 1) m = true := by
  simp only [Memory.wfFrom, Bool.and_eq_true, decide_eq_true_eq, bne_iff_ne, and_assoc]

theorem wfFrom_mono {lo lo' : Nat} {m : Memory} (hle : lo' ≤ lo) (h : Memory.wfFrom lo m = true) :
    Memory.wfFrom lo' m = true := by
  cases m with
  | nil => rfl
  | cons c m =>
    rw [wfFrom_cons] at h ⊢
    exact ⟨hle.trans h.1, h.2⟩

theorem wfFrom_dropCell {lo : Nat} {m : Memory} (h : Memory.wfFrom lo m = true) (a : Nat) :
    Memory.wfFrom lo (m.dropCell a) = true := by
  induction m generalizing lo with
  | nil => rfl
  | cons c m ih =>
    rw [wfFrom_cons] at h
    simp only [Memory.dropCell]
    split
    · exact ih (wfFrom_mono (by omega) h.2.2.2)
    · exact wfFrom_cons.mpr ⟨h.1, h.2.1, h.2.2.1, ih h.2.2.2⟩

/-- Below its lower bound a canonical memory lists nothing. -/
theorem read_below {lo a : Nat} {m : Memory} (h : Memory.wfFrom lo m = true) (ha : a < lo) :
    m.read a = unlistedByte := by
  induction m generalizing lo with
  | nil => rfl
  | cons c m ih =>
    rw [wfFrom_cons] at h
    rw [read_cons, if_neg (by omega)]
    exact ih h.2.2.2 (by omega)

/-- A canonical memory that does not list the address keeps its form when a cell is put there. -/
theorem wfFrom_putCell {lo : Nat} {m : Memory} (h : Memory.wfFrom lo m = true) {a : Nat} {v : Byte}
    (ha : m.read a = unlistedByte) (hlo : lo ≤ a) (hsize : a < 256) (hv : v ≠ unlistedByte) :
    Memory.wfFrom lo (m.putCell a v) = true := by
  induction m generalizing lo with
  | nil => exact wfFrom_cons.mpr ⟨hlo, hsize, hv, rfl⟩
  | cons c m ih =>
    obtain ⟨d, w⟩ := c
    have hc := wfFrom_cons.mp h
    rw [read_cons] at ha
    have hne : a ≠ d := fun e => hc.2.2.1 (by rwa [if_pos e] at ha)
    rw [if_neg hne] at ha
    simp only [Memory.putCell]
    split
    · exact wfFrom_cons.mpr ⟨hlo, hsize, hv, wfFrom_cons.mpr ⟨by omega, hc.2.1, hc.2.2.1, hc.2.2.2⟩⟩
    · exact wfFrom_cons.mpr ⟨hc.1, hc.2.1, hc.2.2.1, ih hc.2.2.2 ha (by omega)⟩

/-- Every write inside the address space keeps the canonical form. -/
theorem wf_write {m : Memory} (h : m.wf = true) {a : Nat} (ha : a < 256) (v : Byte) : (m.write a v).wf = true := by
  unfold Memory.write
  split
  · exact wfFrom_dropCell h a
  · next hv =>
    exact wfFrom_putCell (wfFrom_dropCell h a) (by rw [read_dropCell, if_pos rfl]) (Nat.zero_le a) ha hv

/-- A canonical memory lists no address outside the address space. -/
theorem read_above {lo a : Nat} {m : Memory} (h : Memory.wfFrom lo m = true) (ha : 256 ≤ a) :
    m.read a = unlistedByte := by
  induction m generalizing lo with
  | nil => rfl
  | cons c m ih =>
    rw [wfFrom_cons] at h
    rw [read_cons, if_neg (by omega)]
    exact ih h.2.2.2

/-- Canonical memories that read the same everywhere are one list. -/
theorem memory_ext {lo : Nat} {m m' : Memory} (h : Memory.wfFrom lo m = true) (h' : Memory.wfFrom lo m' = true)
    (hr : ∀ a, m.read a = m'.read a) : m = m' := by
  induction m generalizing lo m' with
  | nil =>
    cases m' with
    | nil => rfl
    | cons c m' =>
      have hc := wfFrom_cons.mp h'
      have := hr c.1
      rw [read_nil, show Memory.read (c :: m') c.1 = c.2 from if_pos rfl] at this
      exact absurd this.symm hc.2.2.1
  | cons c m ih =>
    obtain ⟨a, v⟩ := c
    have hc := wfFrom_cons.mp h
    cases m' with
    | nil =>
      have := hr a
      rw [read_nil, read_cons, if_pos rfl] at this
      exact absurd this hc.2.2.1
    | cons c' m' =>
      obtain ⟨b, w⟩ := c'
      have hc' := wfFrom_cons.mp h'
      have hab : a = b := by
        rcases Nat.lt_trichotomy a b with hlt | heq | hgt
        · have := hr a
          rw [read_cons, if_pos rfl, read_cons, if_neg (by omega), read_below hc'.2.2.2 (by omega)] at this
          exact absurd this hc.2.2.1
        · exact heq
        · have := hr b
          rw [read_cons, if_neg (by omega), read_below hc.2.2.2 (by omega), read_cons, if_pos rfl] at this
          exact absurd this.symm hc'.2.2.1
      subst hab
      have hvw : v = w := by
        have := hr a
        simpa [read_cons] using this
      subst hvw
      rw [ih hc.2.2.2 hc'.2.2.2 fun x => ?_]
      by_cases hx : x = a
      · subst hx
        rw [read_below hc.2.2.2 (by omega), read_below hc'.2.2.2 (by omega)]
      · simpa [read_cons, hx] using hr x

theorem reset_mem_wf : State.reset.mem.wf = true := rfl

/-! ### Stores at consecutive addresses -/

theorem read_storeFrom (bytes : List Byte) (m : Memory) (a b : Nat) :
    (storeFrom m a bytes).read b = if h : a ≤ b ∧ b - a < bytes.length then bytes[b - a]'h.2 else m.read b := by
  induction bytes generalizing m a with
  | nil => simp [storeFrom]
  | cons v bytes ih =>
    rw [storeFrom, ih, read_write]
    rcases Nat.lt_trichotomy b a with hlt | heq | hgt
    · rw [dif_neg (by omega), if_neg (by omega), dif_neg (by omega)]
    · subst heq
      simp
    · have hs : b - a = (b - (a + 1)) + 1 := by omega
      by_cases hin : b - (a + 1) < bytes.length
      · rw [dif_pos ⟨by omega, hin⟩, dif_pos ⟨by omega, by simp; omega⟩]
        simp only [hs, List.getElem_cons_succ]
      · rw [dif_neg (by omega), if_neg (by omega), dif_neg (by simp; omega)]

theorem wf_storeFrom {bytes : List Byte} {m : Memory} (h : m.wf = true) {a : Nat} (ha : a + bytes.length ≤ 256) :
    (storeFrom m a bytes).wf = true := by
  induction bytes generalizing m a with
  | nil => exact h
  | cons v bytes ih =>
    simp only [List.length_cons] at ha
    exact ih (wf_write h (by omega) v) (by omega)

end Sys2Proof.Machine
end

