-- ==== Sys2Proof/Laws/Ops.lean ====
section
/-! SUPPORT. One specification lemma per shared operation: everything it can answer. Later proofs cite these and do not unfold the
operations. -/

namespace Sys2Proof.Machine

variable {s t : State}

/-! ### The bounds check and the two primitives -/

theorem outOfRange_iff {a : Int} : outOfRange a = true ↔ a < 0 ∨ 255 < a := by
  simp [outOfRange]

theorem outOfRange_natCast {n : Nat} : outOfRange (n : Int) = true ↔ 255 < n := by
  rw [outOfRange_iff]; omega

theorem memRead_of_inRange {n : Nat} (h : n ≤ 255) : memRead s (n : Int) = .ok (s.byteAt n) := by
  unfold memRead
  rw [if_neg (by rw [outOfRange_natCast]; omega)]
  rfl

theorem memRead_of_outOfRange {a : Int} (h : a < 0 ∨ 255 < a) : memRead s a = .error (.outOfBounds a) := by
  unfold memRead
  rw [if_pos (outOfRange_iff.mpr h)]

theorem memRead_byte (b : Byte) : memRead s (b.toNat : Int) = .ok (s.byteAt b.toNat) :=
  memRead_of_inRange (by have := b.isLt; omega)

theorem memWrite_of_inRange {n : Nat} (h : n ≤ 255) (v : Nat) :
    memWrite s (n : Int) v = .ok (s.setMem (s.mem.write n (BitVec.ofNat 8 v))) := by
  unfold memWrite
  rw [if_neg (by rw [outOfRange_natCast]; omega)]
  rfl

theorem memWrite_of_outOfRange {a : Int} (h : a < 0 ∨ 255 < a) (v : Nat) :
    memWrite s a v = .error (.outOfBounds a) := by
  unfold memWrite
  rw [if_pos (outOfRange_iff.mpr h)]

theorem memWrite_byte (b : Byte) (v : Nat) :
    memWrite s (b.toNat : Int) v = .ok (s.setMem (s.mem.write b.toNat (BitVec.ofNat 8 v))) :=
  memWrite_of_inRange (by have := b.isLt; omega) v

/-! ### Register operands -/

theorem registerOperand_of_lt {a : Byte} (h : a.toNat < 8) : registerOperand a = .ok ⟨a.toNat, h⟩ := dif_pos h

theorem registerOperand_of_ge {a : Byte} (h : 8 ≤ a.toNat) : registerOperand a = .error (.illegalRegister a) :=
  dif_neg (by omega)

theorem namesRegister_iff {a : Byte} : namesRegister a = true ↔ a.toNat < 8 := by simp [namesRegister]

/-! ### SP arithmetic -/

theorem writeSp_of_inRange {v : Int} (h0 : 0 ≤ v) (h1 : v ≤ 255) :
    writeSp s v = .ok (s.setReg Config.spIndex (BitVec.ofInt 8 v)) := by
  unfold writeSp
  rw [if_neg (by rw [outOfRange_iff]; omega)]

theorem writeSp_of_outOfRange {v : Int} (h : v < 0 ∨ 255 < v) : writeSp s v = .error (.stackBounds v) := by
  unfold writeSp
  rw [if_pos (outOfRange_iff.mpr h)]

theorem ofInt_spDec {b : Byte} (h : 1 ≤ b.toNat) : (BitVec.ofInt 8 (spDec b)).toNat = b.toNat - 1 := by
  have := b.isLt
  simp only [spDec, BitVec.toNat_ofInt]
  omega

theorem ofInt_spInc {b : Byte} (h : b.toNat ≤ 254) : (BitVec.ofInt 8 (spInc b)).toNat = b.toNat + 1 := by
  simp only [spInc, BitVec.toNat_ofInt]
  omega

theorem decSp_ok (h : 1 ≤ s.sp.toNat) :
    decSp s = .ok (s.setReg Config.spIndex (BitVec.ofInt 8 (spDec s.sp))) :=
  writeSp_of_inRange (by simp only [spDec]; omega) (by have := s.sp.isLt; simp only [spDec]; omega)

theorem decSp_fault (h : s.sp.toNat = 0) : decSp s = .error (.stackBounds (-1)) := by
  have hv : spDec s.sp = -1 := by simp only [spDec, h]; rfl
  rw [decSp, hv]
  exact writeSp_of_outOfRange (by omega)

theorem incSp_ok (h : s.sp.toNat ≤ 254) :
    incSp s = .ok (s.setReg Config.spIndex (BitVec.ofInt 8 (spInc s.sp))) :=
  writeSp_of_inRange (by simp only [spInc]; omega) (by simp only [spInc]; omega)

theorem incSp_fault (h : s.sp.toNat = 255) : incSp s = .error (.stackBounds 256) := by
  have hv : spInc s.sp = 256 := by simp only [spInc, h]; rfl
  rw [incSp, hv]
  exact writeSp_of_outOfRange (by omega)

/-! ### pc -/

theorem advance_pc_toNat (h : s.pc.toNat ≤ 253) {k : Nat} (hk : k ≤ 3) :
    (s.advance k).pc.toNat = s.pc.toNat + k := by
  rw [advance_pc, BitVec.toNat_ofNat]
  omega

theorem jumpTo_pc_toNat (v : Byte) : (s.jumpTo v).pc.toNat = v.toNat := by
  have := v.isLt
  rw [jumpTo_pc, BitVec.toNat_setWidth]
  omega

/-! ### Flags and ALU -/

theorem compareFl_cases (a b : Byte) :
    (b.toNat < a.toNat ∧ compareFl a b = 0x02) ∨ (a.toNat < b.toNat ∧ compareFl a b = 0x04) ∨
      (a.toNat = b.toNat ∧ compareFl a b = 0x01) := by
  unfold compareFl
  split
  · next h => exact .inl ⟨h, rfl⟩
  · split
    · next h => exact .inr (.inl ⟨h, rfl⟩)
    · exact .inr (.inr ⟨by omega, rfl⟩)

theorem isEqual_iff {fl : Byte} : isEqual fl = true ↔ fl = 0x01 := by simp [isEqual, flEqual]

/-! ### Fault entry and atomicity -/

theorem takeFault_faultedFrom (i : Option Byte) (f : CoreFault) :
    FaultedFrom s (takeFault i f s) f.cause i f.info :=
  ⟨rfl, ⟨_, rfl, rfl, rfl, rfl, rfl⟩, rfl, rfl, rfl, rfl, rfl⟩

theorem takeFault_raised (i : Option Byte) (f : CoreFault) : Raised (takeFault i f s) f.cause f.info :=
  ⟨rfl, _, rfl, rfl, rfl⟩

@[simp] theorem commit_ok (op : Op) (t : State) : commit op s (.ok t) = .next t := rfl

@[simp] theorem commit_error (op : Op) (f : CoreFault) :
    commit op s (.error f) = .next (takeFault (some op.byte) f s) := rfl

/-- Everything a commit can answer. -/
theorem commit_cases {op : Op} {body : Except CoreFault State} (h : commit op s body = .next t) :
    body = .ok t ∨ ∃ f, body = .error f ∧ t = takeFault (some op.byte) f s := by
  cases body with
  | ok u => exact .inl (by cases h; rfl)
  | error f => exact .inr ⟨f, rfl, by cases h; rfl⟩

end Sys2Proof.Machine
end

