-- ==== Sys2Proof/Laws/Blocks.lean ====
section
/-! SUPPORT. What the blocks' ports carry, in the terms of the instruction rules. -/

namespace Sys2Proof.Machine

theorem portIndex_of_lt {a : Byte} (h : a.toNat < 8) : portIndex a = ⟨a.toNat, h⟩ := by
  simp only [portIndex, Fin.mk.injEq]
  omega

/-- A read port in a step that decrements SP reads the register file after the SP write. -/
theorem readPort_updatedSp (s : State) (v : Byte) (r : Fin 8) :
    readPort s.regs r (some v) = (s.setReg Config.spIndex v).reg r := by
  rw [reg_setReg]
  rfl

/-- fetch_unit where the fetch succeeds. -/
theorem fetchUnit_of_canFetch {s : State} (h : s.CanFetch) :
    fetchUnit s.mem s.pc (s.run == .running) =
      ⟨some s.opcodeAtPc, some (s.byteAt (s.pc.toNat + 1)), some (s.byteAt (s.pc.toNat + 2)), none⟩ := by
  have h1 := h.2
  simp only [fetchUnit, h.1, portRead, BitVec.toNat_ofNat]
  rw [if_neg (by simp), if_neg (by omega), if_neg (by omega), if_neg (by omega)]
  simp only [show (s.pc.toNat + 0) % 2 ^ 8 = s.pc.toNat by omega,
    show (s.pc.toNat + 1) % 2 ^ 8 = s.pc.toNat + 1 by omega,
    show (s.pc.toNat + 2) % 2 ^ 8 = s.pc.toNat + 2 by omega]
  rfl

end Sys2Proof.Machine
end

