-- ==== Sys2Proof/Laws/Decode.lean ====
section
/-! SUPPORT. The small lemmas of the opcode map. -/

namespace Sys2Proof

theorem op_mem_all (op : Op) : op ∈ Op.all := by cases op <;> decide

theorem op_byte_injective {op op' : Op} (h : op.byte = op'.byte) : op = op' := by
  revert h; cases op <;> cases op' <;> decide

theorem decodeOp_byte (op : Op) : decodeOp op.byte = some op := by cases op <;> decide

theorem byte_of_decodeOp {b : Byte} {op : Op} (h : decodeOp b = some op) : op.byte = b := by
  simpa using List.find?_some h

theorem decodeOp_eq_some_iff {b : Byte} {op : Op} : decodeOp b = some op ↔ op.byte = b :=
  ⟨byte_of_decodeOp, fun h => h ▸ decodeOp_byte op⟩

theorem decodeOp_eq_none_iff {b : Byte} : decodeOp b = none ↔ ∀ op : Op, op.byte ≠ b := by
  constructor
  · intro h op e
    rw [← e, decodeOp_byte] at h
    cases h
  · intro h
    cases e : decodeOp b with
    | none => rfl
    | some op => exact absurd (byte_of_decodeOp e) (h op)

/-- AA of an instruction's opcode byte is how many operand bytes it has. -/
theorem operandCount_op (i : Instr) : operandCount i.op.byte = i.operands.length := by
  have h : ∀ op : Op, operandCount op.byte = (op.instr 0 0).operands.length := by intro op; cases op <;> decide
  rw [h]
  cases i <;> rfl

@[simp] theorem op_instr (op : Op) (a b : Byte) : (op.instr a b).op = op := by cases op <;> rfl

/-- Decoding succeeds exactly on the bytes of an operation, with its operands. -/
theorem decode_eq_ok_iff {b0 b1 b2 : Byte} {i : Instr} :
    decode b0 b1 b2 = .ok i ↔ ∃ op, decodeOp b0 = some op ∧ i = op.instr b1 b2 := by
  unfold decode
  cases decodeOp b0 with
  | none => simp
  | some op => simp [eq_comm]

end Sys2Proof
end

