-- ==== Sys2Proof/Laws/Exec.lean ====
section
/-! SUPPORT. What each instruction answers, as rewriting lemmas: one for the form that completes, one for each fault it raises. -/

namespace Sys2Proof.Machine

variable {s : State} {a b : Byte}

/-- SP after a push's decrement, as a byte. -/
abbrev State.spDown (s : State) : Byte := BitVec.ofInt 8 (spDec s.sp)

/-- SP after a pop's increment, as a byte. -/
abbrev State.spUp (s : State) : Byte := BitVec.ofInt 8 (spInc s.sp)

theorem exec_halt : exec .halt s = .next (s.setRun .halted) := rfl

theorem exec_loadImmediate (ha : a.toNat < 8) :
    exec (.loadImmediate a b) s = .next ((s.setReg ⟨a.toNat, ha⟩ b).advance 3) := by
  simp only [exec, execLoadImmediate, registerOperand_of_lt ha]; rfl

theorem exec_loadImmediate_illegal (ha : 8 ≤ a.toNat) :
    exec (.loadImmediate a b) s = .next (takeFault (some Op.loadImmediate.byte) (.illegalRegister a) s) := by
  simp only [exec, execLoadImmediate, registerOperand_of_ge ha]; rfl

theorem exec_printRegister (ha : a.toNat < 8) :
    exec (.printRegister a) s = .next ((s.emit (s.reg ⟨a.toNat, ha⟩)).advance 2) := by
  simp only [exec, execPrintRegister, registerOperand_of_lt ha]; rfl

theorem exec_printRegister_illegal (ha : 8 ≤ a.toNat) :
    exec (.printRegister a) s = .next (takeFault (some Op.printRegister.byte) (.illegalRegister a) s) := by
  simp only [exec, execPrintRegister, registerOperand_of_ge ha]; rfl

theorem exec_add (ha : a.toNat < 8) (hb : b.toNat < 8) :
    exec (.add a b) s =
      .next ((s.setReg ⟨a.toNat, ha⟩ (s.reg ⟨a.toNat, ha⟩ + s.reg ⟨b.toNat, hb⟩)).advance 3) := by
  simp only [exec, execAdd, aluToRegister, registerOperand_of_lt ha, registerOperand_of_lt hb]; rfl

theorem exec_add_illegal_a (ha : 8 ≤ a.toNat) :
    exec (.add a b) s = .next (takeFault (some Op.add.byte) (.illegalRegister a) s) := by
  simp only [exec, execAdd, aluToRegister, registerOperand_of_ge ha]; rfl

theorem exec_add_illegal_b (ha : a.toNat < 8) (hb : 8 ≤ b.toNat) :
    exec (.add a b) s = .next (takeFault (some Op.add.byte) (.illegalRegister b) s) := by
  simp only [exec, execAdd, aluToRegister, registerOperand_of_lt ha, registerOperand_of_ge hb]; rfl

theorem exec_multiply (ha : a.toNat < 8) (hb : b.toNat < 8) :
    exec (.multiply a b) s =
      .next ((s.setReg ⟨a.toNat, ha⟩ (s.reg ⟨a.toNat, ha⟩ * s.reg ⟨b.toNat, hb⟩)).advance 3) := by
  simp only [exec, execMultiply, aluToRegister, registerOperand_of_lt ha, registerOperand_of_lt hb]; rfl

theorem exec_multiply_illegal_a (ha : 8 ≤ a.toNat) :
    exec (.multiply a b) s = .next (takeFault (some Op.multiply.byte) (.illegalRegister a) s) := by
  simp only [exec, execMultiply, aluToRegister, registerOperand_of_ge ha]; rfl

theorem exec_multiply_illegal_b (ha : a.toNat < 8) (hb : 8 ≤ b.toNat) :
    exec (.multiply a b) s = .next (takeFault (some Op.multiply.byte) (.illegalRegister b) s) := by
  simp only [exec, execMultiply, aluToRegister, registerOperand_of_lt ha, registerOperand_of_ge hb]; rfl

theorem exec_push (ha : a.toNat < 8) (hsp : 1 ≤ s.sp.toNat) :
    exec (.push a) s =
      .next (((s.setReg Config.spIndex s.spDown).setMem (s.mem.write s.spDown.toNat
        ((s.setReg Config.spIndex s.spDown).reg ⟨a.toNat, ha⟩))).advance 2) := by
  simp only [exec, execPush, registerOperand_of_lt ha, decSp_ok hsp, bind, Except.bind, memWrite_byte,
    State.sp, reg_setReg_self, BitVec.ofNat_toNat, BitVec.setWidth_eq]
  rfl

theorem exec_push_fault (ha : a.toNat < 8) (hsp : s.sp.toNat = 0) :
    exec (.push a) s = .next (takeFault (some Op.push.byte) (.stackBounds (-1)) s) := by
  simp only [exec, execPush, registerOperand_of_lt ha, decSp_fault hsp]; rfl

theorem exec_push_illegal (ha : 8 ≤ a.toNat) :
    exec (.push a) s = .next (takeFault (some Op.push.byte) (.illegalRegister a) s) := by
  simp only [exec, execPush, registerOperand_of_ge ha]; rfl

/-- SP as POP's increment reads it: the byte just loaded where the destination is R7. -/
abbrev State.afterLoad (s : State) (r : Fin 8) : State := s.setReg r (s.byteAt s.sp.toNat)

theorem exec_pop (ha : a.toNat < 8) (hsp : (s.afterLoad ⟨a.toNat, ha⟩).sp.toNat ≤ 254) :
    exec (.pop a) s =
      .next (((s.afterLoad ⟨a.toNat, ha⟩).setReg Config.spIndex (s.afterLoad ⟨a.toNat, ha⟩).spUp).advance 2) := by
  simp only [exec, execPop, registerOperand_of_lt ha, bind, Except.bind, memRead_byte, incSp_ok hsp]
  rfl

theorem exec_pop_fault (ha : a.toNat < 8) (hsp : (s.afterLoad ⟨a.toNat, ha⟩).sp.toNat = 255) :
    exec (.pop a) s = .next (takeFault (some Op.pop.byte) (.stackBounds 256) s) := by
  simp only [exec, execPop, registerOperand_of_lt ha, bind, Except.bind, memRead_byte, incSp_fault hsp]
  rfl

theorem exec_pop_illegal (ha : 8 ≤ a.toNat) :
    exec (.pop a) s = .next (takeFault (some Op.pop.byte) (.illegalRegister a) s) := by
  simp only [exec, execPop, registerOperand_of_ge ha]; rfl

theorem exec_call (ha : a.toNat < 8) (hsp : 1 ≤ s.sp.toNat) :
    exec (.call a) s =
      .next (((s.setReg Config.spIndex s.spDown).setMem (s.mem.write s.spDown.toNat
        (BitVec.ofNat 8 (s.pc.toNat + 2)))).jumpTo ((s.setReg Config.spIndex s.spDown).reg ⟨a.toNat, ha⟩)) := by
  simp only [exec, execCall, registerOperand_of_lt ha, decSp_ok hsp, bind, Except.bind, memWrite_byte,
    State.sp, reg_setReg_self]
  rfl

theorem exec_call_fault (ha : a.toNat < 8) (hsp : s.sp.toNat = 0) :
    exec (.call a) s = .next (takeFault (some Op.call.byte) (.stackBounds (-1)) s) := by
  simp only [exec, execCall, registerOperand_of_lt ha, decSp_fault hsp]; rfl

theorem exec_call_illegal (ha : 8 ≤ a.toNat) :
    exec (.call a) s = .next (takeFault (some Op.call.byte) (.illegalRegister a) s) := by
  simp only [exec, execCall, registerOperand_of_ge ha]; rfl

theorem exec_ret (hsp : s.sp.toNat ≤ 254) :
    exec .ret s = .next ((s.setReg Config.spIndex s.spUp).jumpTo (s.byteAt s.sp.toNat)) := by
  simp only [exec, execReturn, bind, Except.bind, memRead_byte, incSp_ok hsp]
  rfl

theorem exec_ret_fault (hsp : s.sp.toNat = 255) :
    exec .ret s = .next (takeFault (some Op.ret.byte) (.stackBounds 256) s) := by
  simp only [exec, execReturn, bind, Except.bind, memRead_byte, incSp_fault hsp]
  rfl

theorem exec_compare (ha : a.toNat < 8) (hb : b.toNat < 8) :
    exec (.compare a b) s =
      .next ((s.setFl (compareFl (s.reg ⟨a.toNat, ha⟩) (s.reg ⟨b.toNat, hb⟩))).advance 3) := by
  simp only [exec, execCompare, registerOperand_of_lt ha, registerOperand_of_lt hb]; rfl

theorem exec_compare_illegal_a (ha : 8 ≤ a.toNat) :
    exec (.compare a b) s = .next (takeFault (some Op.compare.byte) (.illegalRegister a) s) := by
  simp only [exec, execCompare, registerOperand_of_ge ha]; rfl

theorem exec_compare_illegal_b (ha : a.toNat < 8) (hb : 8 ≤ b.toNat) :
    exec (.compare a b) s = .next (takeFault (some Op.compare.byte) (.illegalRegister b) s) := by
  simp only [exec, execCompare, registerOperand_of_lt ha, registerOperand_of_ge hb]; rfl

theorem jumpWhen_ok (taken : Bool) (ha : a.toNat < 8) :
    jumpWhen taken a s = .ok (if taken then s.jumpTo (s.reg ⟨a.toNat, ha⟩) else s.advance 2) := by
  simp only [jumpWhen, registerOperand_of_lt ha]; rfl

theorem jumpWhen_illegal (taken : Bool) (ha : 8 ≤ a.toNat) :
    jumpWhen taken a s = .error (.illegalRegister a) := by
  simp only [jumpWhen, registerOperand_of_ge ha]; rfl

theorem exec_jump (ha : a.toNat < 8) : exec (.jump a) s = .next (s.jumpTo (s.reg ⟨a.toNat, ha⟩)) := by
  simp only [exec, execJump, jumpWhen_ok true ha]; rfl

theorem exec_jump_illegal (ha : 8 ≤ a.toNat) :
    exec (.jump a) s = .next (takeFault (some Op.jump.byte) (.illegalRegister a) s) := by
  simp only [exec, execJump, jumpWhen_illegal true ha]; rfl

theorem exec_jumpIfEqual (ha : a.toNat < 8) :
    exec (.jumpIfEqual a) s =
      .next (if isEqual s.fl then s.jumpTo (s.reg ⟨a.toNat, ha⟩) else s.advance 2) := by
  simp only [exec, execJumpIfEqual, jumpWhen_ok _ ha]; rfl

theorem exec_jumpIfEqual_illegal (ha : 8 ≤ a.toNat) :
    exec (.jumpIfEqual a) s = .next (takeFault (some Op.jumpIfEqual.byte) (.illegalRegister a) s) := by
  simp only [exec, execJumpIfEqual, jumpWhen_illegal _ ha]; rfl

theorem exec_jumpIfNotEqual (ha : a.toNat < 8) :
    exec (.jumpIfNotEqual a) s =
      .next (if !isEqual s.fl then s.jumpTo (s.reg ⟨a.toNat, ha⟩) else s.advance 2) := by
  simp only [exec, execJumpIfNotEqual, jumpWhen_ok _ ha]; rfl

theorem exec_jumpIfNotEqual_illegal (ha : 8 ≤ a.toNat) :
    exec (.jumpIfNotEqual a) s = .next (takeFault (some Op.jumpIfNotEqual.byte) (.illegalRegister a) s) := by
  simp only [exec, execJumpIfNotEqual, jumpWhen_illegal _ ha]; rfl

end Sys2Proof.Machine
end

