-- ==== Sys2Proof/Laws/HostPort.lean ====
section
/-! SUPPORT. What the host's moves can do (spec/70_reset_and_hazards.md R709, R711): a load and a step of a session, said once each. -/

namespace Sys2Proof.Machine

@[simp] theorem Session.core_awaitingLoad : Session.awaitingLoad.core = State.reset := rfl
@[simp] theorem Session.core_started (s : State) : (Session.started s).core = s := rfl
@[simp] theorem Session.reset_eq (h : Session) : h.reset = .awaitingLoad := rfl

/-- One step of a run of the core. -/
theorem core_run_succ {s u : State} (k : Nat) (h : Machine.step s = .next u) : core.run (k + 1) s = core.run k u := by
  have e : core.step s = .next u := h
  simp only [Host.Core.run, e]

/-- A move that answers a session answers a started one. -/
theorem Session.start_cases {o : Host.Outcome State Fault Refusal} {u : Session} (h : Session.start o = .next u) :
    ∃ s, o = .next s ∧ u = .started s := by
  cases o with
  | next s => exact ⟨s, rfl, by cases h; rfl⟩
  | fault f => cases h
  | refused r => cases h

theorem loadImage_of_le {bytes : List Byte} (s : State) (h : bytes.length ≤ 256) :
    loadImage bytes s = .next (s.setMem (storeFrom s.mem 0 bytes)) := if_pos h

theorem loadImage_of_gt {bytes : List Byte} (s : State) (h : 256 < bytes.length) :
    loadImage bytes s = .fault .loadError := if_neg (Nat.not_le.mpr h)

/-- A load that is made was made right after reset, and leaves the CORE in the state boot leaves. -/
theorem load_cases {bytes : List Byte} {h u : Session} (e : load bytes h = .next u) :
    h = .awaitingLoad ∧ ∃ s, boot bytes = .next s ∧ u = .started s := by
  cases h with
  | awaitingLoad => exact ⟨rfl, Session.start_cases e⟩
  | started s => cases e

/-- A step of a session is the CORE's step. -/
theorem Session.step_cases {h u : Session} (e : h.step = .next u) :
    ∃ s, Machine.step h.core = .next s ∧ u = .started s := Session.start_cases e

/-- Without a reset a started session stays a started one, and its CORE has only taken steps. -/
theorem Session.started_of_reaches {s : State} {v : Session} (h : (Session.started s).Reaches v) :
    ∃ t, v = .started t ∧ Machine.Reaches s t := by
  induction h with
  | refl => exact ⟨s, rfl, .refl⟩
  | load bytes _ e ih =>
    obtain ⟨t, rfl, _⟩ := ih
    cases e
  | step _ e ih =>
    obtain ⟨t, rfl, ht⟩ := ih
    obtain ⟨w, hw, rfl⟩ := Session.step_cases e
    exact ⟨w, rfl, .step ht hw⟩

end Sys2Proof.Machine
end

