-- ==== Sys2Proof/Laws/PerInstr.lean ====
section
/-! SUPPORT. Statements about every instruction as syntax, one lemma per constructor. -/

namespace Sys2Proof.Laws.EncodingShape

/-- The encoding begins with the instruction's opcode byte, is one byte longer than the operand count in that byte, and its
operand bytes begin with those used as register indices. -/
def Statement (i : Instr) : Prop :=
  (encode i).head? = some i.op.byte ∧ (encode i).length = 1 + operandCount i.op.byte ∧
    i.registerOperands <+: i.operands

theorem halt : Statement .halt :=
  ⟨rfl, congrArg (1 + ·) (show 0 = operandCount Op.halt.byte by decide), by simp [Instr.registerOperands]⟩

theorem loadImmediate (a b : Byte) : Statement (.loadImmediate a b) :=
  ⟨rfl, congrArg (1 + ·) (show 2 = operandCount Op.loadImmediate.byte by decide), by simp [Instr.registerOperands, Instr.operands]⟩

theorem printRegister (a : Byte) : Statement (.printRegister a) :=
  ⟨rfl, congrArg (1 + ·) (show 1 = operandCount Op.printRegister.byte by decide), List.prefix_rfl⟩

theorem add (a b : Byte) : Statement (.add a b) :=
  ⟨rfl, congrArg (1 + ·) (show 2 = operandCount Op.add.byte by decide), List.prefix_rfl⟩

theorem multiply (a b : Byte) : Statement (.multiply a b) :=
  ⟨rfl, congrArg (1 + ·) (show 2 = operandCount Op.multiply.byte by decide), List.prefix_rfl⟩

theorem push (a : Byte) : Statement (.push a) :=
  ⟨rfl, congrArg (1 + ·) (show 1 = operandCount Op.push.byte by decide), List.prefix_rfl⟩

theorem pop (a : Byte) : Statement (.pop a) :=
  ⟨rfl, congrArg (1 + ·) (show 1 = operandCount Op.pop.byte by decide), List.prefix_rfl⟩

theorem call (a : Byte) : Statement (.call a) :=
  ⟨rfl, congrArg (1 + ·) (show 1 = operandCount Op.call.byte by decide), List.prefix_rfl⟩

theorem ret : Statement .ret :=
  ⟨rfl, congrArg (1 + ·) (show 0 = operandCount Op.ret.byte by decide), List.prefix_rfl⟩

theorem compare (a b : Byte) : Statement (.compare a b) :=
  ⟨rfl, congrArg (1 + ·) (show 2 = operandCount Op.compare.byte by decide), List.prefix_rfl⟩

theorem jump (a : Byte) : Statement (.jump a) :=
  ⟨rfl, congrArg (1 + ·) (show 1 = operandCount Op.jump.byte by decide), List.prefix_rfl⟩

theorem jumpIfEqual (a : Byte) : Statement (.jumpIfEqual a) :=
  ⟨rfl, congrArg (1 + ·) (show 1 = operandCount Op.jumpIfEqual.byte by decide), List.prefix_rfl⟩

theorem jumpIfNotEqual (a : Byte) : Statement (.jumpIfNotEqual a) :=
  ⟨rfl, congrArg (1 + ·) (show 1 = operandCount Op.jumpIfNotEqual.byte by decide), List.prefix_rfl⟩

end Sys2Proof.Laws.EncodingShape
end

