-- ==== Sys2Proof/Laws/Step.lean ====
section
/-! SUPPORT. Inversion: everything `exec` can answer, one case per completing form and one per fault, and everything `step` can
answer. Invariants and frames are case analyses of these. -/

namespace Sys2Proof.Machine

/-- Everything the execution of one instruction in `s` can lead to. -/
inductive Answers (s : State) : Instr → State → Prop where
  | halt : Answers s .halt (s.setRun .halted)
  | loadImmediate {a b : Byte} (ha : a.toNat < 8) :
      Answers s (.loadImmediate a b) ((s.setReg ⟨a.toNat, ha⟩ b).advance 3)
  | printRegister {a : Byte} (ha : a.toNat < 8) :
      Answers s (.printRegister a) ((s.emit (s.reg ⟨a.toNat, ha⟩)).advance 2)
  | add {a b : Byte} (ha : a.toNat < 8) (hb : b.toNat < 8) :
      Answers s (.add a b) ((s.setReg ⟨a.toNat, ha⟩ (s.reg ⟨a.toNat, ha⟩ + s.reg ⟨b.toNat, hb⟩)).advance 3)
  | multiply {a b : Byte} (ha : a.toNat < 8) (hb : b.toNat < 8) :
      Answers s (.multiply a b) ((s.setReg ⟨a.toNat, ha⟩ (s.reg ⟨a.toNat, ha⟩ * s.reg ⟨b.toNat, hb⟩)).advance 3)
  | push {a : Byte} (ha : a.toNat < 8) (hsp : 1 ≤ s.sp.toNat) :
      Answers s (.push a) (((s.setReg Config.spIndex s.spDown).setMem (s.mem.write s.spDown.toNat
        ((s.setReg Config.spIndex s.spDown).reg ⟨a.toNat, ha⟩))).advance 2)
  | pop {a : Byte} (ha : a.toNat < 8) (hsp : (s.afterLoad ⟨a.toNat, ha⟩).sp.toNat ≤ 254) :
      Answers s (.pop a)
        (((s.afterLoad ⟨a.toNat, ha⟩).setReg Config.spIndex (s.afterLoad ⟨a.toNat, ha⟩).spUp).advance 2)
  | call {a : Byte} (ha : a.toNat < 8) (hsp : 1 ≤ s.sp.toNat) :
      Answers s (.call a) (((s.setReg Config.spIndex s.spDown).setMem (s.mem.write s.spDown.toNat
        (BitVec.ofNat 8 (s.pc.toNat + 2)))).jumpTo ((s.setReg Config.spIndex s.spDown).reg ⟨a.toNat, ha⟩))
  | ret (hsp : s.sp.toNat ≤ 254) :
      Answers s .ret ((s.setReg Config.spIndex s.spUp).jumpTo (s.byteAt s.sp.toNat))
  | compare {a b : Byte} (ha : a.toNat < 8) (hb : b.toNat < 8) :
      Answers s (.compare a b) ((s.setFl (compareFl (s.reg ⟨a.toNat, ha⟩) (s.reg ⟨b.toNat, hb⟩))).advance 3)
  | jump {a : Byte} (ha : a.toNat < 8) : Answers s (.jump a) (s.jumpTo (s.reg ⟨a.toNat, ha⟩))
  | jumpIfEqual {a : Byte} (ha : a.toNat < 8) :
      Answers s (.jumpIfEqual a) (if isEqual s.fl then s.jumpTo (s.reg ⟨a.toNat, ha⟩) else s.advance 2)
  | jumpIfNotEqual {a : Byte} (ha : a.toNat < 8) :
      Answers s (.jumpIfNotEqual a) (if !isEqual s.fl then s.jumpTo (s.reg ⟨a.toNat, ha⟩) else s.advance 2)
  | illegal {i : Instr} {x : Byte} (h : i.registerOperands.find? (fun o => decide (8 ≤ o.toNat)) = some x) :
      Answers s i (takeFault (some i.op.byte) (.illegalRegister x) s)
  | underflow {i : Instr} (h : i.op = .push ∨ i.op = .call) (hw : i.wellFormed = true) (hsp : s.sp.toNat = 0) :
      Answers s i (takeFault (some i.op.byte) (.stackBounds (-1)) s)
  | overflow {i : Instr} (h : i.op = .pop ∨ i.op = .ret) (hw : i.wellFormed = true) :
      Answers s i (takeFault (some i.op.byte) (.stackBounds 256) s)

theorem wellFormed_unary {a : Byte} (ha : a.toNat < 8) : [a].all namesRegister = true := by
  simp [namesRegister, ha]

theorem firstIllegal_unary {a : Byte} (ha : 8 ≤ a.toNat) :
    [a].find? (fun o => decide (8 ≤ o.toNat)) = some a := by simp [ha]

theorem firstIllegal_fst {a b : Byte} (ha : 8 ≤ a.toNat) :
    [a, b].find? (fun o => decide (8 ≤ o.toNat)) = some a := by simp [ha]

theorem firstIllegal_snd {a b : Byte} (ha : a.toNat < 8) (hb : 8 ≤ b.toNat) :
    [a, b].find? (fun o => decide (8 ≤ o.toNat)) = some b := by
  simp [List.find?, hb, show ¬ 8 ≤ a.toNat by omega]

/-- Every instruction answers a next state, and one of the states above. -/
theorem exec_total (i : Instr) (s : State) : ∃ t, exec i s = .next t ∧ Answers s i t := by
  cases i with
  | halt => exact ⟨_, exec_halt, .halt⟩
  | loadImmediate a b =>
    rcases Nat.lt_or_ge a.toNat 8 with ha | ha
    · exact ⟨_, exec_loadImmediate ha, .loadImmediate ha⟩
    · exact ⟨_, exec_loadImmediate_illegal ha, .illegal (firstIllegal_unary ha)⟩
  | printRegister a =>
    rcases Nat.lt_or_ge a.toNat 8 with ha | ha
    · exact ⟨_, exec_printRegister ha, .printRegister ha⟩
    · exact ⟨_, exec_printRegister_illegal ha, .illegal (firstIllegal_unary ha)⟩
  | add a b =>
    rcases Nat.lt_or_ge a.toNat 8 with ha | ha
    · rcases Nat.lt_or_ge b.toNat 8 with hb | hb
      · exact ⟨_, exec_add ha hb, .add ha hb⟩
      · exact ⟨_, exec_add_illegal_b ha hb, .illegal (firstIllegal_snd ha hb)⟩
    · exact ⟨_, exec_add_illegal_a ha, .illegal (firstIllegal_fst ha)⟩
  | multiply a b =>
    rcases Nat.lt_or_ge a.toNat 8 with ha | ha
    · rcases Nat.lt_or_ge b.toNat 8 with hb | hb
      · exact ⟨_, exec_multiply ha hb, .multiply ha hb⟩
      · exact ⟨_, exec_multiply_illegal_b ha hb, .illegal (firstIllegal_snd ha hb)⟩
    · exact ⟨_, exec_multiply_illegal_a ha, .illegal (firstIllegal_fst ha)⟩
  | push a =>
    rcases Nat.lt_or_ge a.toNat 8 with ha | ha
    · rcases Nat.eq_zero_or_pos s.sp.toNat with hsp | hsp
      · exact ⟨_, exec_push_fault ha hsp, .underflow (.inl rfl) (wellFormed_unary ha) hsp⟩
      · exact ⟨_, exec_push ha hsp, .push ha hsp⟩
    · exact ⟨_, exec_push_illegal ha, .illegal (firstIllegal_unary ha)⟩
  | pop a =>
    rcases Nat.lt_or_ge a.toNat 8 with ha | ha
    · have hlt := (s.afterLoad ⟨a.toNat, ha⟩).sp.isLt
      rcases Nat.lt_or_ge (s.afterLoad ⟨a.toNat, ha⟩).sp.toNat 255 with hsp | hsp
      · exact ⟨_, exec_pop ha (by omega), .pop ha (by omega)⟩
      · exact ⟨_, exec_pop_fault ha (by omega), .overflow (.inl rfl) (wellFormed_unary ha)⟩
    · exact ⟨_, exec_pop_illegal ha, .illegal (firstIllegal_unary ha)⟩
  | call a =>
    rcases Nat.lt_or_ge a.toNat 8 with ha | ha
    · rcases Nat.eq_zero_or_pos s.sp.toNat with hsp | hsp
      · exact ⟨_, exec_call_fault ha hsp, .underflow (.inr rfl) (wellFormed_unary ha) hsp⟩
      · exact ⟨_, exec_call ha hsp, .call ha hsp⟩
    · exact ⟨_, exec_call_illegal ha, .illegal (firstIllegal_unary ha)⟩
  | ret =>
    have hlt := s.sp.isLt
    rcases Nat.lt_or_ge s.sp.toNat 255 with hsp | hsp
    · exact ⟨_, exec_ret (by omega), .ret (by omega)⟩
    · exact ⟨_, exec_ret_fault (by omega), .overflow (.inr rfl) rfl⟩
  | compare a b =>
    rcases Nat.lt_or_ge a.toNat 8 with ha | ha
    · rcases Nat.lt_or_ge b.toNat 8 with hb | hb
      · exact ⟨_, exec_compare ha hb, .compare ha hb⟩
      · exact ⟨_, exec_compare_illegal_b ha hb, .illegal (firstIllegal_snd ha hb)⟩
    · exact ⟨_, exec_compare_illegal_a ha, .illegal (firstIllegal_fst ha)⟩
  | jump a =>
    rcases Nat.lt_or_ge a.toNat 8 with ha | ha
    · exact ⟨_, exec_jump ha, .jump ha⟩
    · exact ⟨_, exec_jump_illegal ha, .illegal (firstIllegal_unary ha)⟩
  | jumpIfEqual a =>
    rcases Nat.lt_or_ge a.toNat 8 with ha | ha
    · exact ⟨_, exec_jumpIfEqual ha, .jumpIfEqual ha⟩
    · exact ⟨_, exec_jumpIfEqual_illegal ha, .illegal (firstIllegal_unary ha)⟩
  | jumpIfNotEqual a =>
    rcases Nat.lt_or_ge a.toNat 8 with ha | ha
    · exact ⟨_, exec_jumpIfNotEqual ha, .jumpIfNotEqual ha⟩
    · exact ⟨_, exec_jumpIfNotEqual_illegal ha, .illegal (firstIllegal_unary ha)⟩

/-- The inversion of `exec`. -/
theorem exec_cases {i : Instr} {s t : State} (h : exec i s = .next t) : Answers s i t := by
  obtain ⟨u, hu, ha⟩ := exec_total i s
  rw [hu] at h
  cases h
  exact ha

/-! ### Fetch and step -/

theorem fetch_ok {s : State} (h : s.pc.toNat ≤ 253) :
    fetch s = .ok ⟨s.byteAt s.pc.toNat, s.byteAt (s.pc.toNat + 1), s.byteAt (s.pc.toNat + 2)⟩ := by
  have h1 : ((s.pc.toNat : Int) + 1) = ((s.pc.toNat + 1 : Nat) : Int) := by omega
  have h2 : ((s.pc.toNat : Int) + 2) = ((s.pc.toNat + 2 : Nat) : Int) := by omega
  simp only [fetch, h1, h2, memRead_of_inRange (show s.pc.toNat ≤ 255 by omega),
    memRead_of_inRange (show s.pc.toNat + 1 ≤ 255 by omega), memRead_of_inRange (show s.pc.toNat + 2 ≤ 255 by omega)]

/-- A fetch that fails: which address fails first, and whether the opcode byte had been read. -/
theorem fetch_error {s : State} (h : 254 ≤ s.pc.toNat) :
    fetch s = .error (if s.pc.toNat ≤ 255 then some s.opcodeAtPc else none,
      .outOfBounds (if s.pc.toNat ≤ 256 then 256 else s.pc.toNat)) := by
  have h1 : ((s.pc.toNat : Int) + 1) = ((s.pc.toNat + 1 : Nat) : Int) := by omega
  have h2 : ((s.pc.toNat : Int) + 2) = ((s.pc.toNat + 2 : Nat) : Int) := by omega
  rcases Nat.lt_or_ge s.pc.toNat 256 with hp | hp
  · rcases Nat.lt_or_ge s.pc.toNat 255 with hq | hq
    · have he : s.pc.toNat = 254 := by omega
      simp only [fetch, h1, h2, memRead_of_inRange (show s.pc.toNat ≤ 255 by omega),
        memRead_of_inRange (show s.pc.toNat + 1 ≤ 255 by omega),
        memRead_of_outOfRange (s := s) (a := ((s.pc.toNat + 2 : Nat) : Int)) (by omega)]
      simp only [he, State.opcodeAtPc]
      rfl
    · have he : s.pc.toNat = 255 := by omega
      simp only [fetch, h1, memRead_of_inRange (show s.pc.toNat ≤ 255 by omega),
        memRead_of_outOfRange (s := s) (a := ((s.pc.toNat + 1 : Nat) : Int)) (by omega)]
      simp only [he, State.opcodeAtPc]
      rfl
  · simp only [fetch, memRead_of_outOfRange (s := s) (a := (s.pc.toNat : Int)) (by omega),
      if_neg (show ¬ s.pc.toNat ≤ 255 by omega)]
    split
    · next hle => rw [show s.pc.toNat = 256 by omega]; rfl
    · rfl

/-- Everything a step can do. -/
theorem step_cases {s t : State} (h : step s = .next t) :
    (s.run ≠ .running ∧ t = s) ∨
    (s.run = .running ∧ 254 ≤ s.pc.toNat ∧
      t = takeFault (if s.pc.toNat ≤ 255 then some s.opcodeAtPc else none)
        (.outOfBounds (if s.pc.toNat ≤ 256 then 256 else s.pc.toNat)) s) ∨
    (s.CanFetch ∧ decodeOp s.opcodeAtPc = none ∧
      t = takeFault (some s.opcodeAtPc) (.unsupportedOperation s.opcodeAtPc) s) ∨
    (s.CanFetch ∧ ∃ op, decodeOp s.opcodeAtPc = some op ∧
      exec (op.instr (s.byteAt (s.pc.toNat + 1)) (s.byteAt (s.pc.toNat + 2))) s = .next t) := by
  unfold step cycle at h
  cases hr : s.run with
  | halted => rw [hr] at h; cases h; exact .inl ⟨by simp, rfl⟩
  | faulted => rw [hr] at h; cases h; exact .inl ⟨by simp, rfl⟩
  | running =>
    right
    rw [hr] at h
    simp only [runningStep] at h
    rcases Nat.lt_or_ge s.pc.toNat 254 with hp | hp
    · right
      rw [fetch_ok (by omega)] at h
      simp only [decodeAndExecute, decode] at h
      have hc : s.CanFetch := ⟨hr, by omega⟩
      cases hd : decodeOp (s.byteAt s.pc.toNat) with
      | none => rw [hd] at h; cases h; exact .inl ⟨hc, hd, rfl⟩
      | some op => rw [hd] at h; exact .inr ⟨hc, op, hd, h⟩
    · left
      rw [fetch_error hp] at h
      cases h
      exact ⟨rfl, hp, rfl⟩

end Sys2Proof.Machine
end

