-- ==== Sys2Proof/Tests/Slice0.lean ====
section
/-! SUPPORT. The model's own tests. Expected results are the spec's: the encodings of spec/30_encoding.md R306 and the instruction
rules, and the vectors of spec/95_test_vectors.md (their ids stand in the names). Then one witness per statement with
hypotheses: a concrete state and operands that meet them. -/

namespace Sys2Proof.Tests

open Sys2Proof Sys2Proof.Machine

/-! ### Helpers -/

/-- The next state, if that is the answer. -/
def next? : Host.Outcome State Fault Refusal → Option State
  | .next t => some t
  | .fault _ => none
  | .refused _ => none

/-- One step with three bytes placed where the next fetch reads, and one reading of the state it leaves. -/
def after {α : Type} (s : State) (b0 b1 b2 : Byte) (read : State → α) : Option α :=
  (next? (step (placeInstruction s b0 b1 b2))).map read

/-- The reset state with two registers set. -/
def regs2 (r : Fin 8) (v : Byte) (q : Fin 8) (w : Byte) : State := (State.reset.setReg r v).setReg q w

/-- The reset state at another pc. -/
def at_ (pc : PcWord) : State := State.reset.setPc pc

/-- The reset state with SP and the byte at SP set. -/
def stack (sp top : Byte) : State :=
  (State.reset.setReg 7 sp).setMem (Memory.write [] sp.toNat top)

/-- The fault record as the numbers a host reads: cause, pc, instr, info. -/
def record (s : State) : Option (Nat × Nat × Option Byte × Int) :=
  s.fault.map fun r => (r.cause.code.toNat, r.pc.toNat, r.instr, r.info)

/-! ### WellFormed refuses what it checks -/

theorem test_wf_loadImmediate_reg : (Instr.loadImmediate 8 0).wellFormed = false := by decide
theorem test_wf_loadImmediate_value_unchecked : (Instr.loadImmediate 7 255).wellFormed = true := by decide
theorem test_wf_printRegister : (Instr.printRegister 255).wellFormed = false := by decide
theorem test_wf_add_a : (Instr.add 8 0).wellFormed = false := by decide
theorem test_wf_add_b : (Instr.add 0 8).wellFormed = false := by decide
theorem test_wf_multiply_a : (Instr.multiply 9 0).wellFormed = false := by decide
theorem test_wf_multiply_b : (Instr.multiply 0 9).wellFormed = false := by decide
theorem test_wf_push : (Instr.push 8).wellFormed = false := by decide
theorem test_wf_pop : (Instr.pop 8).wellFormed = false := by decide
theorem test_wf_call : (Instr.call 8).wellFormed = false := by decide
theorem test_wf_compare_a : (Instr.compare 128 0).wellFormed = false := by decide
theorem test_wf_compare_b : (Instr.compare 0 128).wellFormed = false := by decide
theorem test_wf_jump : (Instr.jump 8).wellFormed = false := by decide
theorem test_wf_jumpIfEqual : (Instr.jumpIfEqual 8).wellFormed = false := by decide
theorem test_wf_jumpIfNotEqual : (Instr.jumpIfNotEqual 8).wellFormed = false := by decide
theorem test_wf_no_operands : Instr.halt.wellFormed = true ∧ Instr.ret.wellFormed = true := by decide

/-! ### Decoding: one word per constructor, written bit by bit from the encoding line of its rule -/

theorem test_decode_halt : decode 0b00000001 0b11111111 0b11111111 = .ok .halt := by decide
theorem test_decode_loadImmediate :
    decode 0b10000010 0b00000011 0b10000001 = .ok (.loadImmediate 3 129) := by decide
theorem test_decode_printRegister : decode 0b01000111 0b00000101 0b11111111 = .ok (.printRegister 5) := by decide
theorem test_decode_add : decode 0b10100000 0b00000001 0b00000010 = .ok (.add 1 2) := by decide
theorem test_decode_multiply : decode 0b10100010 0b00000100 0b00000101 = .ok (.multiply 4 5) := by decide
theorem test_decode_push : decode 0b01000101 0b00000110 0b11111111 = .ok (.push 6) := by decide
theorem test_decode_pop : decode 0b01000110 0b00000111 0b11111111 = .ok (.pop 7) := by decide
theorem test_decode_call : decode 0b01010000 0b00000010 0b11111111 = .ok (.call 2) := by decide
theorem test_decode_ret : decode 0b00010001 0b11111111 0b11111111 = .ok .ret := by decide
theorem test_decode_compare : decode 0b10100111 0b00000000 0b00000111 = .ok (.compare 0 7) := by decide
theorem test_decode_jump : decode 0b01010100 0b00000011 0b11111111 = .ok (.jump 3) := by decide
theorem test_decode_jumpIfEqual : decode 0b01010101 0b00001000 0b11111111 = .ok (.jumpIfEqual 8) := by decide
theorem test_decode_jumpIfNotEqual : decode 0b01010110 0b00000011 0b11111111 = .ok (.jumpIfNotEqual 3) := by decide

/-- R302, R307, R308: AA = 11, a legal AA with no instruction, and 0x00 are unrecognized (V1, V2, V3). -/
theorem test_decode_unrecognized :
    decode 0x00 0 0 = .error (.unsupportedOperation 0x00) ∧ decode 0xC0 0 0 = .error (.unsupportedOperation 0xC0) ∧
    decode 0x83 0 0 = .error (.unsupportedOperation 0x83) := by decide

/-- The first byte is bits 7..0 of a table word: `82 00 08`, and HALT in 8 bits with the bits above dropped. -/
theorem test_decodeTableWord :
    decodeTableWord 24 0x080082 = some (.loadImmediate 0 8) ∧ decodeTableWord 8 0xFF01 = some .halt := by decide

/-! ### Fetch, decode and faults (spec/95_test_vectors.md 2.1) -/

theorem test_V1 : (next? (step State.reset)).map record = some (some (3, 0, some 0x00, 0)) := by decide
theorem test_V4 : after State.reset 0xA1 9 9 record = some (some (3, 0, some 0xA1, 0xA1)) := by decide
theorem test_V5 :
    (next? (step ((at_ 254).setMem [(254, 0x01)]))).map record = some (some (1, 254, some 0x01, 256)) := by decide
theorem test_V6 :
    (next? (step ((at_ 255).setMem [(255, 0x01)]))).map record = some (some (1, 255, some 0x01, 256)) := by decide
theorem test_V7 : (next? (step (at_ 256))).map record = some (some (1, 256, none, 256)) := by decide
theorem test_V8 : after (at_ 253) 0x01 0 0 (fun t => (t.run, t.pc)) = some (.halted, 253) := by decide

/-! ### One step of each instruction (2.2 to 2.8) -/

theorem test_H1 : after State.reset 0x01 0 0 (fun t => (t.run, t.pc, t.out)) = some (.halted, 0, []) := by decide
theorem test_H2 :
    after (((State.reset.setReg 0 5).setFl 0x02).emit 1) 0x01 0 0 (fun t => (t.reg 0, t.fl, t.out)) =
      some (5, 0x02, [1]) := by decide

theorem test_D3 : after State.reset 0x82 7 0x10 (fun t => (t.sp, t.pc)) = some (0x10, 3) := by decide
theorem test_D4 : after State.reset 0x82 8 5 record = some (some (4, 0, some 0x82, 8)) := by decide

theorem test_D7 : after State.reset 0x47 7 0 (fun t => (t.out, t.pc)) = some ([244], 2) := by decide
theorem test_D8 : after State.reset 0x47 0xFF 0 record = some (some (4, 0, some 0x47, 255)) ∧
    after State.reset 0x47 0xFF 0 (fun t => t.out) = some [] := by decide

theorem test_A1 : after (regs2 0 200 1 100) 0xA0 0 1 (fun t => (t.reg 0, t.reg 1, t.pc)) = some (44, 100, 3) := by decide
theorem test_A8 : after State.reset 0xA0 0x0A 9 record = some (some (4, 0, some 0xA0, 10)) := by decide

theorem test_M3 : after (regs2 0 255 1 255) 0xA2 0 1 (fun t => (t.reg 0, t.reg 1, t.pc)) = some (1, 255, 3) := by decide
theorem test_M7 : after (regs2 0 16 1 17) 0xA2 0 1 (fun t => t.reg 0) = some 16 := by decide

theorem test_U4 : after State.reset 0x45 7 0 (fun t => (t.sp, t.byteAt 0xF3, t.pc)) = some (0xF3, 0xF3, 2) := by decide
theorem test_U2 : after (State.reset.setReg 7 0) 0x45 0 0 record = some (some (2, 0, some 0x45, -1)) ∧
    after (State.reset.setReg 7 0) 0x45 0 0 (fun t => t.sp) = some 0 := by decide

theorem test_O4 : after (stack 0xF3 0x20) 0x46 7 0 (fun t => (t.sp, t.byteAt 0xF3)) = some (0x21, 0x20) := by decide
theorem test_O3 : after (stack 0xFF 7) 0x46 1 0 record = some (some (2, 0, some 0x46, 256)) ∧
    after (stack 0xFF 7) 0x46 1 0 (fun t => t.reg 1) = some 0 := by decide

theorem test_C1 : after ((at_ 3).setReg 1 8) 0x50 1 0 (fun t => (t.sp, t.byteAt 0xF3, t.pc)) = some (0xF3, 5, 8) := by
  decide
theorem test_C3 : after (at_ 10) 0x50 7 0 (fun t => (t.sp, t.byteAt 0xF3, t.pc)) = some (0xF3, 12, 0xF3) := by decide

theorem test_T1 : after (stack 0xF3 5) 0x11 0 0 (fun t => (t.pc, t.sp)) = some (5, 0xF4) := by decide
theorem test_T2 : after (State.reset.setReg 7 0xFF) 0x11 0 0 record = some (some (2, 0, some 0x11, 256)) := by decide

theorem test_K4 : after (regs2 0 0x80 1 0x7F) 0xA7 0 1 (fun t => (t.fl, t.reg 0, t.pc)) = some (0x02, 0x80, 3) := by
  decide
theorem test_K7 : after ((regs2 0 1 1 1).setFl 0x04) 0xA7 0 1 (fun t => t.fl) = some 0x01 := by decide

theorem test_J1 : after (State.reset.setReg 3 12) 0x54 3 0 (fun t => t.pc) = some 12 := by decide
theorem test_J2 : after (State.reset.setReg 0 254) 0x54 0 0 (fun t => (t.pc, t.run)) = some (254, .running) := by decide

theorem test_Q1 : after (((at_ 20).setReg 3 12).setFl 0x01) 0x55 3 0 (fun t => t.pc) = some 12 := by decide
theorem test_Q5 : after ((at_ 20).setFl 0x02) 0x55 8 0 record = some (some (4, 20, some 0x55, 8)) := by decide

theorem test_N2 : after (((at_ 20).setReg 3 12).setFl 0x01) 0x56 3 0 (fun t => t.pc) = some 22 := by decide
theorem test_N3 : after ((at_ 20).setReg 3 12) 0x56 3 0 (fun t => t.pc) = some 12 := by decide

/-! ### The host's side -/

/-- The host's two questions: the row's word runs as the first instruction after reset. -/
theorem test_withFetchWord :
    (next? (step (State.reset.withFetchWord 24 0x080082))).map (fun t => (t.reg 0, t.pc, t.sp)) = some (8, 3, 0xF4) := by
  decide

/-- R215: bytes from address 0; a zero byte leaves no entry. -/
theorem test_boot : (next? (boot [0x82, 0x00, 0x08])).map (fun t => (t.mem, t.pc)) =
    some ([(0, 0x82), (2, 0x08)], 0) := by decide

/-- R711: one load per reset, an image that leaves the reset state as it is included. -/
theorem test_second_load : load [0x01] (.started State.reset) = .refused .loadNotAfterReset ∧
    (Session.started State.reset).reset = .awaitingLoad := ⟨rfl, rfl⟩

/-- R113, R600: the numbers a host reads. -/
theorem test_codes : RunState.halted.code = 0b01 ∧ RunState.faulted.code = 0b10 ∧ Cause.stackBounds.code = 2 ∧
    Cause.aluUnsupported.code = 5 := by decide

/-! ### Witnesses: concrete states and operands that meet the hypotheses of each statement -/

/-- A legal state that is not the reset state. -/
theorem witness_wf_running : (at_ 5).Wf :=
  ⟨rfl, by decide, .inl rfl, by decide, by intro r h; cases h⟩

/-- A legal Faulted state. -/
theorem witness_wf_faulted :
    (takeFault (some 0x45) (.stackBounds (-1)) (State.reset.setReg 7 0)).Wf :=
  ⟨rfl, by decide, .inl rfl, by decide, by
    intro r h; cases h; exact ⟨⟨by decide, .inl ⟨rfl, .inl rfl⟩⟩, rfl⟩⟩

theorem witness_DecodeEncodeRoundTrip :
    [0x45, 0xFF, 0x00] = (encode (.push 0xFF) ++ [0x00, 0x01]).take 3 ∧
    [0x01, 0x00, 0x01] = (encode .halt ++ [0x00, 0x01]).take 3 := by decide

theorem witness_EncodeDecodeRoundTrip :
    decode 0xA0 0xFF 0xFF = .ok (.add 0xFF 0xFF) ∧ decode 0x01 0xFF 0xFF = .ok .halt := by decide

theorem witness_DecodeMatchesOpcodeByteOnly : Op.push.byte = 0x45 ∧ ∀ op : Op, op.byte ≠ 0x00 :=
  ⟨rfl, by intro op; cases op <;> decide⟩

theorem witness_OperandCountThreeIsUnrecognized : 0xC0 ≤ (0xC0 : Byte).toNat ∧ 0xC0 ≤ (0xFF : Byte).toNat := by decide

theorem witness_MemReadReturnsByteOrOutOfBounds :
    ((-1 : Int) < 0 ∨ (255 : Int) < -1) ∧ ((256 : Int) < 0 ∨ (255 : Int) < 256) ∧ (255 : Nat) ≤ 255 := by decide

theorem witness_MemWriteStoresLowByte :
    ((-1 : Int) < 0 ∨ (255 : Int) < -1) ∧ ((256 : Int) < 0 ∨ (255 : Int) < 256) ∧ (255 : Nat) ≤ 255 ∧
    State.reset.mem.wf = true := by decide

theorem witness_FetchSeesTheStoredByte (v : Nat) : ∃ t0 t1 t2,
    memWrite (at_ 253) (253 : Nat) v = .ok t0 ∧ t0.pc.toNat = 253 ∧
    memWrite (at_ 253) (254 : Nat) v = .ok t1 ∧ t1.pc.toNat + 1 = 254 ∧
    memWrite (at_ 253) (255 : Nat) v = .ok t2 ∧ t2.pc.toNat + 2 = 255 :=
  ⟨_, _, _, rfl, rfl, rfl, rfl, rfl, rfl⟩

theorem witness_StepRunsTheDecodedInstruction :
    (at_ 253).run = .running ∧ (at_ 253).pc.toNat ≤ 253 ∧
    decode (((at_ 253).setMem [(253, 0x01)]).byteAt 253) 0 0 = .ok .halt := by decide

theorem witness_PlacedInstructionIsTheNextStep :
    decodeTableWord 8 0x01 = some .halt ∧ State.reset.run = .running ∧ State.reset.pc.toNat ≤ 253 := by decide

theorem witness_FetchPastTheEndFaults :
    (at_ 254).run = .running ∧ 254 ≤ (at_ 254).pc.toNat ∧ (at_ 255).pc.toNat ≤ 255 ∧ (at_ 256).pc.toNat = 256 ∧
    254 ≤ (at_ 511).pc.toNat := by decide

theorem witness_UnrecognizedOpcodeFaults :
    State.reset.run = .running ∧ State.reset.pc.toNat ≤ 253 ∧
    State.reset.opcodeAtPc.toNat ∉
      [0x01, 0x82, 0x47, 0xA0, 0xA2, 0x45, 0x46, 0x50, 0x11, 0xA7, 0x54, 0x55, 0x56] := by decide

theorem witness_IllegalRegisterExactlyWhenIllFormed :
    (Instr.add 9 12).registerOperands.find? (fun o => decide (8 ≤ o.toNat)) = some 9 ∧
    (Instr.add 7 8).registerOperands.find? (fun o => decide (8 ≤ o.toNat)) = some 8 ∧
    (Instr.loadImmediate 7 255).registerOperands.find? (fun o => decide (8 ≤ o.toNat)) = none := by decide

theorem witness_IllegalRegister_second_clause :
    ∃ t r, exec (.push 0) (State.reset.setReg 7 0) = .next t ∧ (State.reset.setReg 7 0).fault = none ∧
      t.fault = some r := ⟨_, _, rfl, rfl, rfl⟩

theorem witness_FirstFaultInPhaseOrderIsReported :
    (at_ 254).run = .running ∧ 254 ≤ (at_ 254).pc.toNat ∧
    (at_ 253).pc.toNat ≤ 253 ∧ decodeOp (at_ 253).opcodeAtPc = none ∧
    (Instr.push 8).registerOperands.find? (fun o => decide (8 ≤ o.toNat)) = some 8 ∧
    decode 0x45 8 0 = .ok (.push 8) ∧ decode 0x45 7 0 = .ok (.push 7) ∧ (Instr.push 7).wellFormed = true := by decide

theorem witness_stackBounds_step :
    ∃ t, step (placeInstruction (State.reset.setReg 7 0) 0x45 0 0) = .next t ∧ t.run = .faulted :=
  ⟨_, rfl, rfl⟩

theorem witness_FaultingStepChangesNothingElse :
    ∃ t u, step State.reset = .next t ∧ t.run = .faulted ∧ step (at_ 256) = .next u ∧ u.run = .faulted ∧
      State.reset.run = .running := ⟨_, _, rfl, rfl, rfl, rfl, rfl⟩

theorem witness_FaultRecordIsWrittenOnce :
    (∃ t, (at_ 5).Wf ∧ step (at_ 5) = .next t ∧ (at_ 5).run = .running ∧ t.run = .faulted) ∧
    (∃ s r, s.Wf ∧ step s = .next s ∧ s.fault = some r) :=
  ⟨⟨_, witness_wf_running, rfl, rfl, rfl⟩, ⟨_, _, witness_wf_faulted, rfl, rfl⟩⟩

theorem witness_FaultRecord_first_clause :
    ∃ t, ((at_ 5).setMem [(5, 0x01)]).Wf ∧ step ((at_ 5).setMem [(5, 0x01)]) = .next t ∧ t.run ≠ .faulted :=
  ⟨((at_ 5).setMem [(5, 0x01)]).setRun .halted, ⟨by decide, by decide, .inl rfl, by decide, by intro r h; cases h⟩,
    rfl, by decide⟩

theorem witness_RunLeavesRunningOnlyByHaltOrFault :
    (∃ t, step (placeInstruction State.reset 0x01 0 0) = .next t ∧ t.run = .halted) ∧
    (∃ t, step State.reset = .next t ∧ t.run = .faulted) ∧ State.reset.run = .running :=
  ⟨⟨_, rfl, rfl⟩, ⟨_, rfl, rfl⟩, rfl⟩

theorem witness_EndedRunsStayAsTheyAre :
    (State.reset.setRun .halted).run ≠ .running ∧ (State.reset.setRun .faulted).run ≠ .running := by decide

/-- The premise of every statement about an instruction, at its boundary. -/
theorem witness_pc_at_boundary : (at_ 253).pc.toNat ≤ 253 ∧ (at_ 253).pc.toNat = 253 ∧ (at_ 253).run = .running := by
  decide

theorem witness_HaltStopsTheRun : (at_ 253).pc.toNat ≤ 253 := by decide

/-- Register operands at the boundaries of "names a register" and "does not". -/
theorem witness_register_operands :
    (0 : Byte).toNat < 8 ∧ (7 : Byte).toNat < 8 ∧ 8 ≤ (8 : Byte).toNat ∧ 8 ≤ (255 : Byte).toNat := by decide

theorem witness_LoadImmediateWritesTheOperand :
    (at_ 253).pc.toNat ≤ 253 ∧ (7 : Byte).toNat < 8 ∧ (at_ 253).run = .running ∧ (at_ 253).pc.toNat = 253 ∧
    8 ≤ (8 : Byte).toNat := by decide

theorem witness_PrintRegisterAppendsToOut :
    (at_ 253).pc.toNat ≤ 253 ∧ (7 : Byte).toNat < 8 ∧ 8 ≤ (8 : Byte).toNat := by decide

theorem witness_AddWritesSumModulo256 :
    (at_ 253).pc.toNat ≤ 253 ∧ (7 : Byte).toNat < 8 ∧ (0 : Byte).toNat < 8 ∧ 8 ≤ (8 : Byte).toNat := by decide

theorem witness_MultiplyWritesLowByteOfProduct :
    (at_ 253).pc.toNat ≤ 253 ∧ (7 : Byte).toNat < 8 ∧ (0 : Byte).toNat < 8 ∧ 8 ≤ (8 : Byte).toNat := by decide

theorem witness_PushStoresBelowSp :
    (at_ 253).pc.toNat ≤ 253 ∧ (7 : Byte).toNat < 8 ∧ 1 ≤ ((at_ 253).setReg 7 1).sp.toNat ∧
    ((0 : Nat) : Int) = spDec ((at_ 253).setReg 7 1).sp ∧
    ((at_ 253).setReg 7 0).sp.toNat = 0 ∧ 8 ≤ (8 : Byte).toNat := by decide

theorem witness_PopLoadsAtSp :
    (at_ 253).pc.toNat ≤ 253 ∧ (6 : Byte).toNat < 8 ∧ (6 : Byte).toNat ≠ 7 ∧ (stack 254 0).sp.toNat ≤ 254 ∧
    (7 : Byte).toNat = 7 ∧ ((stack 0xF3 254).byteAt (stack 0xF3 254).sp.toNat).toNat ≤ 254 ∧
    (6 : Byte).toNat < 7 ∧ (stack 255 0).sp.toNat = 255 ∧
    ((stack 0xF3 255).byteAt (stack 0xF3 255).sp.toNat).toNat = 255 ∧ 8 ≤ (8 : Byte).toNat := by decide

theorem witness_CallStoresReturnAddress :
    (at_ 253).pc.toNat ≤ 253 ∧ (7 : Byte).toNat < 8 ∧ 1 ≤ ((at_ 253).setReg 7 1).sp.toNat ∧
    ((0 : Nat) : Int) = spDec ((at_ 253).setReg 7 1).sp ∧
    ((at_ 253).setReg 7 0).sp.toNat = 0 ∧ 8 ≤ (8 : Byte).toNat := by decide

theorem witness_ReturnJumpsToPoppedByte :
    (at_ 253).pc.toNat ≤ 253 ∧ ((at_ 253).setReg 7 254).sp.toNat ≤ 254 ∧ ((at_ 253).setReg 7 255).sp.toNat = 255 := by
  decide

theorem witness_CompareWritesFl :
    (at_ 253).pc.toNat ≤ 253 ∧ (7 : Byte).toNat < 8 ∧ (0 : Byte).toNat < 8 ∧
    ((regs2 0 0x80 1 0x7F).reg 1).toNat < ((regs2 0 0x80 1 0x7F).reg 0).toNat ∧
    ((regs2 0 0 1 1).reg 0).toNat < ((regs2 0 0 1 1).reg 1).toNat ∧
    ((regs2 0 4 1 4).reg 0).toNat = ((regs2 0 4 1 4).reg 1).toNat ∧ 8 ≤ (8 : Byte).toNat := by decide

theorem witness_JumpGoesToRegister :
    (at_ 253).pc.toNat ≤ 253 ∧ (7 : Byte).toNat < 8 ∧
    (((at_ 253).setReg 7 253).reg 7).toNat = ((at_ 253).setReg 7 253).pc.toNat ∧ 8 ≤ (8 : Byte).toNat := by decide

theorem witness_JumpIfEqualTestsFl :
    (at_ 253).pc.toNat ≤ 253 ∧ (7 : Byte).toNat < 8 ∧ ((at_ 253).setFl 0x01).fl = 0x01 ∧ (at_ 253).fl ≠ 0x01 ∧
    8 ≤ (8 : Byte).toNat := by decide

theorem witness_JumpIfNotEqualTestsFl :
    (at_ 253).pc.toNat ≤ 253 ∧ (7 : Byte).toNat < 8 ∧ (at_ 253).fl ≠ 0x01 ∧ ((at_ 253).setFl 0x01).fl = 0x01 ∧
    8 ≤ (8 : Byte).toNat := by decide

theorem witness_NextPcComesFromTheTable :
    ∃ t, (at_ 253).run = .running ∧ (at_ 253).pc.toNat ≤ 253 ∧ exec (.call 7) (at_ 253) = .next t ∧
      t.run ≠ .faulted := ⟨_, rfl, by decide, rfl, by decide⟩

theorem witness_PushThenPopRestoresRegisters :
    (7 : Byte).toNat < 8 ∧ 1 ≤ ((at_ 251).setReg 7 1).sp.toNat ∧ ((at_ 251).setReg 7 1).pc.toNat ≤ 251 := by decide

theorem witness_ReturnResumesAfterCall :
    ∃ t, (7 : Byte).toNat < 8 ∧ 1 ≤ ((at_ 253).setReg 7 1).sp.toNat ∧ ((at_ 253).setReg 7 1).pc.toNat ≤ 253 ∧
      exec (.call 7) ((at_ 253).setReg 7 1) = .next t := ⟨_, by decide, by decide, by decide, rfl⟩

theorem witness_StepKeepsWellFormed : ∃ t, (at_ 5).Wf ∧ step (at_ 5) = .next t := ⟨_, witness_wf_running, rfl⟩

theorem witness_ReachableStatesAreWellFormed : ∃ t, Reachable t ∧ t.run = .faulted :=
  ⟨_, ⟨[], _, rfl, .step .refl rfl⟩, rfl⟩

theorem witness_FlIsWrittenByCompareOnly :
    ∃ t, step (placeInstruction (State.reset.setFl 0x04) 0xA7 0 0) = .next t ∧ t.fl ≠ 0x04 ∧ (0x04 : Byte) ≠ 0x00 :=
  ⟨_, rfl, by decide, by decide⟩

theorem witness_OnlyEqualityOfFlIsRead :
    ∃ t, (State.reset.setFl 0x02).fl ≠ 0x01 ∧ (0x04 : Byte) ≠ 0x01 ∧
      step (placeInstruction (State.reset.setFl 0x02) 0x55 3 0) = .next t := ⟨_, by decide, by decide, rfl⟩

theorem witness_OutIsWrittenByPrintRegisterOnly :
    ∃ t, step (placeInstruction State.reset 0x47 7 0) = .next t ∧ t.out ≠ [] := ⟨_, rfl, by decide⟩

theorem witness_OutIsNeverReadBack : ∃ t, step (placeInstruction State.reset 0x47 7 0) = .next t := ⟨_, rfl⟩

theorem witness_MemoryIsWrittenByPushAndCallOnly :
    ∃ t, step (placeInstruction State.reset 0x45 7 0) = .next t ∧
      t.byteAt 0xF3 ≠ (placeInstruction State.reset 0x45 7 0).byteAt 0xF3 := ⟨_, rfl, by decide⟩

theorem witness_RegistersAreWrittenByTheTable :
    ∃ t, step (placeInstruction State.reset 0x46 0 0) = .next t ∧
      t.reg 7 ≠ (placeInstruction State.reset 0x46 0 0).reg 7 := ⟨_, rfl, by decide⟩

theorem witness_AluComputes :
    (0 : Byte).toNat < (255 : Byte).toNat ∧ (4 : Byte).toNat = (4 : Byte).toNat := by decide

theorem witness_AluFaultIsUnreachable :
    ∃ t r, State.reset.fault = none ∧ step State.reset = .next t ∧ t.fault = some r := ⟨_, _, rfl, rfl, rfl⟩

theorem witness_ResetClearsRegistersPcAndFl : (0 : Fin 8).val ≤ 6 ∧ (6 : Fin 8).val ≤ 6 := by decide

theorem witness_BootLoadsTheProgramAtZero :
    ([] : List Byte).length ≤ 256 ∧ (List.replicate 256 (0x01 : Byte)).length ≤ 256 ∧
    255 < (List.replicate 256 (0x01 : Byte)).length := by
  rw [List.length_replicate]
  exact ⟨Nat.zero_le _, Nat.le_refl _, Nat.lt_succ_self _⟩

theorem witness_LoadRefusesLongImagesAndLaterLoads :
    (List.replicate 256 (0x01 : Byte)).length ≤ 256 ∧ 256 < (List.replicate 257 (0x01 : Byte)).length := by
  rw [List.length_replicate, List.length_replicate]
  exact ⟨Nat.le_refl _, Nat.lt_succ_self _⟩

/-- The two images that leave the CORE as reset does, and a first step with no program: sessions in which a load is refused. -/
theorem witness_OneProgramIsLoadedPerReset :
    load [] .awaitingLoad = .next (.started State.reset) ∧ load [0x00] .awaitingLoad = .next (.started State.reset) ∧
    (∃ u, Session.awaitingLoad.step = .next u ∧ (Session.started State.reset).step = .next u ∧
      (Session.started State.reset).Reaches u) :=
  ⟨rfl, rfl, ⟨_, rfl, rfl, .step .refl rfl⟩⟩

theorem witness_SessionStatesAreReachable :
    ∃ u v, (Session.started State.reset).reset.Reaches u ∧ u = .started State.reset ∧
      u.step = .next v ∧ (Session.started State.reset).reset.Reaches v :=
  ⟨_, _, .load [0x00] .refl rfl, rfl, rfl, .step (.load [0x00] .refl rfl) rfl⟩

theorem witness_OutOfFuelIsNoResult :
    (∃ t, core.run 3 (placeInstruction State.reset 0x54 0 0) = .next t ∧ t.run = .running) ∧
    (∃ t, runToEnd 1 (placeInstruction State.reset 0x01 0 0) = some t) ∧
    (placeInstruction State.reset 0x54 0 0).CanFetch ∧ (placeInstruction State.reset 0x54 0 0).pc.toNat = 0 ∧
    (placeInstruction State.reset 0x54 0 0).opcodeAtPc = Op.jump.byte ∧
    ((placeInstruction State.reset 0x54 0 0).reg 0).toNat = 0 :=
  ⟨⟨_, rfl, rfl⟩, ⟨_, rfl⟩, ⟨rfl, by decide⟩, by decide⟩

theorem witness_RunToEndIsReachability :
    ∃ t, runToEnd 1 State.reset = some t ∧ Reaches State.reset t ∧ t.run ≠ .running :=
  ⟨_, rfl, .step .refl rfl, by decide⟩

theorem witness_RunThatEndsWellIsSafe : ∃ t, EndsWell (placeInstruction State.reset 0x01 0 0) t :=
  ⟨_, .step .refl rfl, rfl⟩

end Sys2Proof.Tests
end

section
/-! SUPPORT. What reset and boot leave in the state (spec/10_state.md R117 to R123, spec/20_memory.md R215), and the statements
about them. -/

namespace Sys2Proof.Machine

/-! ### The state after reset, field by field -/

@[simp] theorem reset_pc : State.reset.pc = 0 := rfl
@[simp] theorem reset_fl : State.reset.fl = 0x00 := rfl
@[simp] theorem reset_mem : State.reset.mem = [] := rfl

/-- R7 alone holds a byte other than 0 (R117, R118). -/
theorem reset_reg (r : Fin 8) : State.reset.reg r = if r = Config.spIndex then spInit else 0x00 := by
  revert r
  decide

@[simp] theorem reset_byteAt (a : Nat) : State.reset.byteAt a = 0x00 := by
  rw [byteAt_eq, reset_mem, read_nil, unlistedByte]

/-! ### The image in memory -/

theorem read_storeFrom_zero_of_lt {bytes : List Byte} (m : Memory) {i : Nat} (h : i < bytes.length) :
    (storeFrom m 0 bytes).read i = bytes[i] := by
  rw [read_storeFrom, dif_pos ⟨Nat.zero_le i, h⟩]
  rfl

theorem read_storeFrom_zero_of_ge {bytes : List Byte} (m : Memory) {i : Nat} (h : bytes.length ≤ i) :
    (storeFrom m 0 bytes).read i = m.read i := by
  rw [read_storeFrom, dif_neg fun hin => Nat.not_lt.mpr h hin.2]

/-- The state boot leaves is the reset state with the image stored over its memory. -/
theorem boot_of_le {bytes : List Byte} (h : bytes.length ≤ 256) :
    boot bytes = .next (State.reset.setMem (storeFrom State.reset.mem 0 bytes)) := loadImage_of_le State.reset h

/-! ### The statements -/

/-- Settles O51: the image is read back below its length, the reset state's zeros at and beyond it. -/
theorem bootLoadsTheProgramAtZero : Obligations.BootLoadsTheProgramAtZero := by
  refine ⟨reset_byteAt, fun bytes hlen => ⟨_, boot_of_le hlen, fun i hi => ?_, fun i hi => ?_, ?_⟩⟩
  · rw [setMem_byteAt, read_storeFrom_zero_of_lt _ hi]
  · rw [setMem_byteAt, read_storeFrom_zero_of_ge _ hi, ← byteAt_eq, reset_byteAt]
  · rw [setMem_mem]

/-- Settles O49: a register below R7 is not SP, the one register that reset sets to a byte other than 0. -/
theorem resetClearsRegistersPcAndFl : Obligations.ResetClearsRegistersPcAndFl := by
  refine ⟨fun r hr => ?_, reset_pc, reset_fl⟩
  have hsp : r ≠ Config.spIndex := by
    rintro rfl
    exact absurd hr (by decide)
  rw [reset_reg, if_neg hsp]

end Sys2Proof.Machine
end

section
/-! SUPPORT. The memory primitives over every integer address (spec/20_memory.md R201). -/

namespace Sys2Proof.Machine

/-- Settles O8: the two cases of `MemRead`, out of range and in range, are the model's own two laws of it. -/
theorem memReadReturnsByteOrOutOfBounds : Obligations.MemReadReturnsByteOrOutOfBounds := by
  refine fun s a => ⟨memRead_of_outOfRange, ?_⟩
  rintro n rfl hn
  exact memRead_of_inRange hn

end Sys2Proof.Machine
end

section
/-! SUPPORT. What the decoder answers on a byte of the opcode map and on any other (spec/30_encoding.md R302, R305). -/

namespace Sys2Proof

/-- The byte of an operation decodes to it, whatever the operand bytes are. -/
theorem decode_byte (op : Op) (x y : Byte) : decode op.byte x y = .ok (op.instr x y) :=
  decode_eq_ok_iff.mpr ⟨op, decodeOp_byte op, rfl⟩

theorem decode_of_unrecognized {b : Byte} (h : ∀ op : Op, op.byte ≠ b) (x y : Byte) :
    decode b x y = .error (.unsupportedOperation b) := by
  rw [decode, decodeOp_eq_none_iff.mpr h]

theorem operandCount_eq_div (b : Byte) : operandCount b = b.toNat / 64 := by
  rw [operandCount, BitVec.extractLsb_toNat, Nat.shiftRight_eq_div_pow]
  exact Nat.mod_eq_of_lt (by omega)

/-- AA of an operation is the number of its operands, at most `MAX_OPERANDS` (R300). -/
theorem operandCount_byte_le (op : Op) : operandCount op.byte ≤ Config.maxOperands := by cases op <;> decide

/-- Settles O5: AA of such a byte is 3, and no operation's byte has an AA above 2. -/
theorem operandCountThreeIsUnrecognized : Obligations.OperandCountThreeIsUnrecognized := by
  intro b x y hb
  have hAA : operandCount b = 3 := by
    rw [operandCount_eq_div]
    omega
  refine ⟨hAA, decode_of_unrecognized (fun op hop => ?_) x y⟩
  have hle : operandCount b ≤ 2 := hop ▸ operandCount_byte_le op
  omega

/-- Settles O6: each row of the opcode map decodes to its instruction over any operand bytes, and the register roles are read off
the table of register operands. -/
theorem unusedOperandBytesAreIgnored : Obligations.UnusedOperandBytesAreIgnored := by
  intro x y
  refine ⟨decode_byte .halt x y, decode_byte .ret x y, decode_byte .loadImmediate x y, decode_byte .printRegister x y,
    decode_byte .push x y, decode_byte .pop x y, decode_byte .call x y, decode_byte .jump x y,
    decode_byte .jumpIfEqual x y, decode_byte .jumpIfNotEqual x y, decode_byte .add x y, decode_byte .multiply x y,
    decode_byte .compare x y, rfl, rfl, rfl, ?oneRegister, ?twoRegisters⟩
  case oneRegister => simp [Instr.registerOperands]
  case twoRegisters => simp [Instr.registerOperands]

end Sys2Proof
end

section
/-! SUPPORT. Which bytes decode, and to what, over every opcode byte (spec/40_core_cycle.md R404). -/

namespace Sys2Proof

/-- Settles O4: the byte of an operation decodes to that operation over any operand bytes, and every other byte is an
unrecognized one. -/
theorem decodeMatchesOpcodeByteOnly : Obligations.DecodeMatchesOpcodeByteOnly := by
  intro b x y
  refine ⟨?recognized, fun h => ⟨decode_of_unrecognized h x y, decodeOp_eq_none_iff.mpr h⟩⟩
  case recognized =>
    rintro op rfl
    exact ⟨decode_byte op x y, decodeOp_byte op⟩

end Sys2Proof
end

section
/-! SUPPORT. The sources of the next pc (spec/40_core_cycle.md R408): the sequential advance over an instruction's own bytes, and
the choice a conditional jump makes. -/

namespace Sys2Proof.Machine

/-- A state that still holds the pc of the fetch, advanced over the opcode byte and the operands, holds the sequential pc. -/
theorem advance_operands_pc_toNat {s u : State} (i : Instr) (hu : u.pc = s.pc) (hpc : s.pc.toNat ≤ 253) :
    (u.advance (1 + i.operands.length)).pc.toNat = s.pc.toNat + 1 + operandCount i.op.byte := by
  have hn : operandCount i.op.byte ≤ 2 := operandCount_byte_le i.op
  rw [← operandCount_op, advance_pc_toNat (by rwa [hu]) (by omega), hu, Nat.add_assoc]

/-- The pc after a conditional jump, its target read in the state after it. -/
theorem conditionalJump_pc_toNat {s t : State} {taken : Bool} {r : Fin 8} (hpc : s.pc.toNat ≤ 253)
    (ht : (if taken then s.jumpTo (s.reg r) else s.advance 2) = t) :
    t.pc.toNat = if taken then (t.reg r).toNat else s.pc.toNat + 2 := by
  subst ht
  cases taken with
  | true => exact jumpTo_pc_toNat _
  | false => exact advance_pc_toNat hpc (by decide)

/-- Settles O34, by cases on everything `exec` can answer: the seven sequential instructions share one lemma, the two conditional
jumps another, and the three fault answers are excluded. -/
theorem nextPcComesFromTheTable : Obligations.NextPcComesFromTheTable := by
  intro i s t _ hpc hexec hrun
  cases exec_cases hexec with
  | halt => exact setRun_pc s _
  | loadImmediate _ => exact advance_operands_pc_toNat (.loadImmediate _ _) rfl hpc
  | printRegister _ => exact advance_operands_pc_toNat (.printRegister _) rfl hpc
  | add _ _ => exact advance_operands_pc_toNat (.add _ _) rfl hpc
  | multiply _ _ => exact advance_operands_pc_toNat (.multiply _ _) rfl hpc
  | push _ _ => exact advance_operands_pc_toNat (.push _) rfl hpc
  | pop _ _ => exact advance_operands_pc_toNat (.pop _) rfl hpc
  | compare _ _ => exact advance_operands_pc_toNat (.compare _ _) rfl hpc
  | call ha _ => exact ⟨ha, jumpTo_pc_toNat _⟩
  | jump ha => exact ⟨ha, jumpTo_pc_toNat _⟩
  | ret _ => exact jumpTo_pc_toNat _
  | jumpIfEqual ha =>
    refine ⟨ha, ?_⟩
    simpa only [isEqual_iff] using conditionalJump_pc_toNat (taken := isEqual s.fl) (r := ⟨_, ha⟩) hpc rfl
  | jumpIfNotEqual ha =>
    refine ⟨ha, ?_⟩
    simpa only [Bool.not_eq_true', ← Bool.not_eq_true, isEqual_iff, ite_not] using
      conditionalJump_pc_toNat (taken := !isEqual s.fl) (r := ⟨_, ha⟩) hpc rfl
  | illegal _ => exact absurd rfl hrun
  | underflow _ _ _ => exact absurd rfl hrun
  | overflow _ _ => exact absurd rfl hrun

end Sys2Proof.Machine
end

section
/-! SUPPORT. The data movement instructions (spec/42_data_movement.md): what a register write followed by the advance leaves
unchanged, and what a step does whose fetch reaches past the end of memory. -/

namespace Sys2Proof.Machine

/-- A register write and the advance leave every other register alone. -/
theorem setReg_advance_sameRegsExcept (s : State) (r : Fin 8) (v : Byte) (k : Nat) :
    SameRegsExcept [r] s ((s.setReg r v).advance k) := by
  intro q hq
  rw [advance_reg, reg_setReg_of_ne s (List.ne_of_not_mem_cons hq)]

/-- An answer that takes an IllegalRegister fault raises it, with the operand byte as its info (R406). -/
theorem execRaises_illegalRegister {i : Instr} {s : State} {o : Option Byte} {a : Byte}
    (h : exec i s = .next (takeFault o (.illegalRegister a) s)) : ExecRaises i s .illegalRegister a.toNat :=
  ⟨_, h, takeFault_raised o (.illegalRegister a)⟩

theorem step_of_fetch_error {s : State} {o : Option Byte} {f : CoreFault} (hrun : s.run = .running)
    (hf : fetch s = .error (o, f)) : step s = .next (takeFault o f s) := by
  simp only [step, cycle, hrun, runningStep, hf]

/-- With pc at 254, 255 or 256 the first address that fails is 256 (R402). -/
theorem step_raises_outOfBounds_256 {s : State} (hrun : s.run = .running) (hlo : 254 ≤ s.pc.toNat)
    (hhi : s.pc.toNat ≤ 256) : ∃ u, step s = .next u ∧ Raised u .outOfBounds 256 := by
  have hf := fetch_error hlo
  rw [if_pos hhi] at hf
  exact ⟨_, step_of_fetch_error hrun hf, takeFault_raised _ (.outOfBounds 256)⟩

/-- Settles O22: the instruction completes exactly when operand_a names a register, and from pc = 253 it leaves pc at 256, where
no byte can be fetched. -/
theorem loadImmediateWritesTheOperand : Obligations.LoadImmediateWritesTheOperand := by
  refine fun s a b hpc => ⟨rfl, fun ha => ?completes, fun ha => execRaises_illegalRegister (exec_loadImmediate_illegal ha)⟩
  case completes =>
    have hnext : ((s.setReg ⟨a.toNat, ha⟩ b).advance 3).pc.toNat = s.pc.toNat + 3 :=
      advance_pc_toNat (s := s.setReg _ b) hpc (by decide)
    refine ⟨_, exec_loadImmediate ha, reg_setReg_self s _ b, hnext, setReg_advance_sameRegsExcept s _ b 3, rfl,
      ⟨rfl, rfl, rfl⟩, fun _ => rfl, fun hrun hlast => ?_⟩
    exact step_raises_outOfBounds_256 hrun (by omega) (by omega)

/-- Settles O23: emitting a byte and advancing touch OUT and pc alone. -/
theorem printRegisterAppendsToOut : Obligations.PrintRegisterAppendsToOut := by
  refine fun s a hpc => ⟨rfl, fun ha => ?completes, fun ha => execRaises_illegalRegister (exec_printRegister_illegal ha)⟩
  case completes =>
    exact ⟨_, exec_printRegister ha, rfl, advance_pc_toNat (s := s.emit _) hpc (by decide), fun _ _ => rfl, rfl, rfl, rfl,
      fun _ => rfl⟩

end Sys2Proof.Machine
end

section
/-! SUPPORT. The arithmetic instructions (spec/43_arithmetic.md): the result is reduced modulo 256 by the byte operation itself, and
both instructions leave unchanged what a register write followed by the advance over three bytes does. -/

namespace Sys2Proof.Machine

/-- A register write, then the advance over an opcode byte and two operands, touches that register and pc alone. -/
theorem setReg_advance_three_frame {s : State} (r : Fin 8) (v : Byte) (hpc : s.pc.toNat ≤ 253) :
    ((s.setReg r v).advance 3).pc.toNat = s.pc.toNat + 3 ∧ SameRegsExcept [r] s ((s.setReg r v).advance 3) ∧
      ((s.setReg r v).advance 3).fl = s.fl ∧ SameControl s ((s.setReg r v).advance 3) ∧
      SameMemory s ((s.setReg r v).advance 3) :=
  ⟨advance_pc_toNat (s := s.setReg r v) hpc (by decide), setReg_advance_sameRegsExcept s r v 3, rfl,
    ⟨rfl, rfl, rfl⟩, fun _ => rfl⟩

/-- Settles O24: the destination holds the byte sum of what both registers held before, and byte addition is addition modulo
256. -/
theorem addWritesSumModulo256 : Obligations.AddWritesSumModulo256 := by
  refine fun s a b hpc => ⟨rfl, fun ha hb => ?completes, fun ha => execRaises_illegalRegister (exec_add_illegal_a ha),
    fun ha hb => execRaises_illegalRegister (exec_add_illegal_b ha hb)⟩
  case completes =>
    refine ⟨_, exec_add ha hb, ?_, setReg_advance_three_frame _ _ hpc⟩
    rw [advance_reg, reg_setReg_self, BitVec.toNat_add]

/-- Settles O25: as the sum, with byte multiplication, which keeps the low byte of the product. -/
theorem multiplyWritesLowByteOfProduct : Obligations.MultiplyWritesLowByteOfProduct := by
  refine fun s a b hpc => ⟨rfl, fun ha hb => ?completes, fun ha => execRaises_illegalRegister (exec_multiply_illegal_a ha),
    fun ha hb => execRaises_illegalRegister (exec_multiply_illegal_b ha hb)⟩
  case completes =>
    refine ⟨_, exec_multiply ha hb, ?_, setReg_advance_three_frame _ _ hpc⟩
    rw [advance_reg, reg_setReg_self, BitVec.toNat_mul]

end Sys2Proof.Machine
end

section
/-! SUPPORT. The comparison (spec/46_compare.md R520): its FL code case by case, and what a write of FL followed by the advance over
three bytes leaves unchanged. -/

namespace Sys2Proof.Machine

theorem compareFl_of_gt {a b : Byte} (h : b.toNat < a.toNat) : compareFl a b = 0x02 := if_pos h

theorem compareFl_of_lt {a b : Byte} (h : a.toNat < b.toNat) : compareFl a b = 0x04 := by
  rw [compareFl, if_neg (Nat.not_lt_of_gt h), if_pos h, flLess]

theorem compareFl_of_eq {a b : Byte} (h : a.toNat = b.toNat) : compareFl a b = 0x01 := by
  rw [compareFl, if_neg h.not_gt, if_neg h.not_lt, flEqual]

/-- A write of FL, then the advance over an opcode byte and two operands, touches FL and pc alone. -/
theorem setFl_advance_three_frame {s : State} (fl : Byte) (hpc : s.pc.toNat ≤ 253) :
    ((s.setFl fl).advance 3).pc.toNat = s.pc.toNat + 3 ∧ SameRegsExcept [] s ((s.setFl fl).advance 3) ∧
      SameControl s ((s.setFl fl).advance 3) ∧ SameMemory s ((s.setFl fl).advance 3) :=
  ⟨advance_pc_toNat (s := s.setFl fl) hpc (by decide), fun _ _ => rfl, ⟨rfl, rfl, rfl⟩, fun _ => rfl⟩

/-- Settles O30: FL after the instruction is the code of the comparison whatever it was before, and each of the three orders of the
operands has its own code. -/
theorem compareWritesFl : Obligations.CompareWritesFl := by
  refine fun s a b hpc => ⟨rfl, fun ha hb => ?completes, fun ha => execRaises_illegalRegister (exec_compare_illegal_a ha),
    fun ha hb => execRaises_illegalRegister (exec_compare_illegal_b ha hb)⟩
  case completes =>
    exact ⟨_, exec_compare ha hb, compareFl_of_gt, compareFl_of_lt, compareFl_of_eq, setFl_advance_three_frame _ hpc⟩

end Sys2Proof.Machine
end

section
/-! SUPPORT. The unconditional jump (spec/47_branch.md R540): what a jump leaves unchanged, and the jump of an instruction to its own
address. -/

namespace Sys2Proof.Machine

/-- A jump touches pc alone. -/
theorem jumpTo_frame (s : State) (v : Byte) :
    SameRegsExcept [] s (s.jumpTo v) ∧ (s.jumpTo v).fl = s.fl ∧ SameControl s (s.jumpTo v) ∧ SameMemory s (s.jumpTo v) :=
  ⟨fun _ _ => rfl, rfl, ⟨rfl, rfl, rfl⟩, fun _ => rfl⟩

/-- A jump to the address the state is at already leaves the state as it is. -/
theorem jumpTo_eq_self {s : State} {v : Byte} (h : v.toNat = s.pc.toNat) : s.jumpTo v = s := by
  have hpc : (s.jumpTo v).pc = s.pc := BitVec.eq_of_toNat_eq ((jumpTo_pc_toNat v).trans h)
  exact state_ext rfl hpc rfl rfl rfl rfl rfl

/-- Settles O31: the state after the jump is the state before it with another pc, and with no other pc where the register names the
instruction's own address. -/
theorem jumpGoesToRegister : Obligations.JumpGoesToRegister := by
  refine fun s a _ => ⟨rfl, fun ha => ?completes, fun ha => execRaises_illegalRegister (exec_jump_illegal ha)⟩
  case completes =>
    exact ⟨_, exec_jump ha, jumpTo_pc_toNat _, jumpTo_eq_self, jumpTo_frame s _⟩

end Sys2Proof.Machine
end

section
/-! SUPPORT. The executor under fuel (spec/70_reset_and_hazards.md R708): what a result of it says of the run of the core, and the
states a step leaves as they are, the ended ones and the one about to jump to its own address. -/

namespace Sys2Proof.Machine

variable {s t : State}

/-! ### States that a step leaves as they are -/

/-- Once the run has ended no step changes the state (R403, R410). -/
theorem step_of_not_running (h : s.run ≠ .running) : step s = .next s := by
  rw [step, cycle]
  cases hr : s.run with
  | running => exact absurd hr h
  | halted => rfl
  | faulted => rfl

theorem step_of_decode {i : Instr} (hc : s.CanFetch)
    (hd : decode s.opcodeAtPc (s.byteAt (s.pc.toNat + 1)) (s.byteAt (s.pc.toNat + 2)) = .ok i) : step s = exec i s := by
  obtain ⟨hrun, hpc⟩ := hc
  rw [State.opcodeAtPc] at hd
  simp only [step, cycle, hrun, runningStep, fetch_ok hpc, decodeAndExecute, hd]

/-- A jump whose register names the instruction's own address is a step to the same state (R540). -/
theorem step_selfJump (ha : (s.byteAt (s.pc.toNat + 1)).toNat < 8) (hc : s.CanFetch)
    (hop : s.opcodeAtPc = Op.jump.byte) (htarget : (s.reg ⟨(s.byteAt (s.pc.toNat + 1)).toNat, ha⟩).toNat = s.pc.toNat) :
    step s = .next s := by
  have hd : decode s.opcodeAtPc (s.byteAt (s.pc.toNat + 1)) (s.byteAt (s.pc.toNat + 2)) =
      .ok (.jump (s.byteAt (s.pc.toNat + 1))) := by
    rw [hop]
    exact decode_byte .jump _ _
  rw [step_of_decode hc hd, exec_jump ha, jumpTo_eq_self htarget]

/-- A state that one step leaves as it is, any number of steps leaves as it is. -/
theorem core_run_of_step_eq_self (h : step s = .next s) (n : Nat) : core.run n s = .next s := by
  induction n with
  | zero => rfl
  | succ k ih => rw [core_run_succ k h, ih]

/-! ### Results of the executor -/

/-- Everything a result under fuel can come from: a run that has ended already, or a step that leads to the result under the fuel
left. -/
theorem runToEnd_cases {n : Nat} (h : runToEnd n s = some t) :
    (s.run ≠ .running ∧ t = s) ∨ ∃ k u, n = k + 1 ∧ step s = .next u ∧ runToEnd k u = some t := by
  cases n with
  | zero =>
    rw [runToEnd] at h
    split at h
    · cases h
    · next hr => cases h; exact .inl ⟨hr, rfl⟩
  | succ k =>
    rw [runToEnd] at h
    split at h
    · split at h
      · next u hu => exact .inr ⟨k, u, rfl, hu, h⟩
      · cases h
      · cases h
    · next hr => cases h; exact .inl ⟨hr, rfl⟩

/-- A result under fuel `n` has ended, and is the state after `n` steps: the steps after the end leave it as it is. -/
theorem core_run_of_runToEnd {n : Nat} (h : runToEnd n s = some t) : core.run n s = .next t ∧ t.run ≠ .running := by
  induction n generalizing s with
  | zero =>
    obtain ⟨hr, rfl⟩ | ⟨k, u, hk, -, -⟩ := runToEnd_cases h
    · exact ⟨rfl, hr⟩
    · cases hk
  | succ k ih =>
    obtain ⟨hr, rfl⟩ | ⟨k', u, hk, hu, hend⟩ := runToEnd_cases h
    · exact ⟨core_run_of_step_eq_self (step_of_not_running hr) _, hr⟩
    · cases hk
      rw [core_run_succ k hu]
      exact ih hend

/-- A run that is still Running when the fuel is out has no result: the result would be the state the run is in. -/
theorem runToEnd_eq_none_of_running {n : Nat} (hrun : core.run n s = .next t) (ht : t.run = .running) :
    runToEnd n s = none := by
  cases he : runToEnd n s with
  | none => rfl
  | some u =>
    obtain ⟨hu, hend⟩ := core_run_of_runToEnd he
    cases hrun.symm.trans hu
    exact absurd ht hend

/-! ### The statement -/

/-- Settles O54: a result is the state the run is in and has ended, so a run that is Running has none; and the run of a jump to
itself stays in its one Running state, since its step answers that state. -/
theorem outOfFuelIsNoResult : Obligations.OutOfFuelIsNoResult := by
  refine ⟨fun n s t => runToEnd_eq_none_of_running, fun n s t h => (core_run_of_runToEnd h).2, ?selfJump⟩
  case selfJump =>
    intro s ha hc hop htarget n
    have hrun : core.run n s = .next s := core_run_of_step_eq_self (step_selfJump ha hc hop htarget) n
    exact ⟨hrun, hc.1, runToEnd_eq_none_of_running hrun hc.1⟩

end Sys2Proof.Machine
end

section
/-! SUPPORT. The encoder and the decoder undo each other (spec/30_encoding.md R300, R305), and what the opcode byte says of its
instruction (R301). -/

namespace Sys2Proof

/-- The operation of an instruction rebuilds it from its operands, whatever bytes follow them. -/
theorem instr_of_operands (i : Instr) {x y b1 b2 : Byte} (h : [b1, b2] = (i.operands ++ [x, y]).take 2) :
    i.op.instr b1 b2 = i := by
  cases i <;> simp_all [Instr.operands, Instr.op, Op.instr]

/-- Settles O2: the first byte decodes to the operation, which takes its operands from the bytes after it. -/
theorem decodeEncodeRoundTrip : Obligations.DecodeEncodeRoundTrip := by
  intro i x y b0 b1 b2 h
  obtain ⟨rfl, hops⟩ := List.cons.inj h
  refine ⟨?_, ?_⟩
  · rw [decode_byte, instr_of_operands i hops]
  · rw [operandCount_op, encode, List.length_cons, Nat.add_comm]

/-- An operation takes as many of the two operand bytes as AA of its byte says (R300). -/
theorem operands_instr (op : Op) (x y : Byte) : (op.instr x y).operands = [x, y].take (operandCount op.byte) := by
  cases op <;> rfl

/-- Settles O3: the bytes decode to an operation with AA operands, so the encoding is its byte and the first AA of the two. -/
theorem encodeDecodeRoundTrip : Obligations.EncodeDecodeRoundTrip := by
  intro b0 b1 b2 i h
  obtain ⟨op, hop, rfl⟩ := decode_eq_ok_iff.mp h
  obtain rfl := byte_of_decodeOp hop
  rw [encode, op_instr, operands_instr, Nat.add_comm, List.take_succ_cons]

/-- Settles O7, operation by operation: the operand count and the bits 5 and 4 are read off the control table (R405). -/
theorem opcodeFieldsDescribeTheInstruction : Obligations.OpcodeFieldsDescribeTheInstruction := by
  refine fun op x y => ⟨?count, ?aluBit, ?pcBit, fun op' => op_byte_injective⟩
  case count => rw [← operandCount_op, op_instr]
  case aluBit => cases op <;> decide
  case pcBit => cases op <;> decide

/-- Settles O1: each word is the byte of its operation, followed by the operand bytes. -/
theorem specWordsDecode : Obligations.SpecWordsDecode :=
  ⟨decode_byte .halt 0 0, decode_byte .loadImmediate 5 255, decode_byte .printRegister 7 0, decode_byte .add 0 1,
    decode_byte .multiply 2 3, decode_byte .push 4 0, decode_byte .pop 1 0, decode_byte .call 1 0, decode_byte .ret 0 0,
    decode_byte .compare 6 5, decode_byte .jump 3 0, decode_byte .jumpIfEqual 3 0, decode_byte .jumpIfNotEqual 3 0⟩

end Sys2Proof
end

section
/-! SUPPORT. The phases of a step (spec/40_core_cycle.md R403, R411): where a state stands in the order fetch, decode, execute, and
what the step answers there. -/

namespace Sys2Proof.Machine

variable {s : State}

/-- How far the step of a state gets: it takes none, its fetch fails, its opcode byte is unrecognized, or an operation runs. -/
inductive StepPhase (s : State) : Prop where
  | ended (hrun : s.run ≠ .running)
  | pastEnd (hrun : s.run = .running) (hpc : 254 ≤ s.pc.toNat)
  | unrecognized (hc : s.CanFetch) (hop : decodeOp s.opcodeAtPc = none)
  | decoded (op : Op) (hc : s.CanFetch) (hop : op.byte = s.opcodeAtPc)

theorem stepPhase (s : State) : StepPhase s := by
  by_cases hrun : s.run = .running
  · rcases Nat.lt_or_ge s.pc.toNat 254 with hpc | hpc
    · have hc : s.CanFetch := ⟨hrun, by omega⟩
      cases hop : decodeOp s.opcodeAtPc with
      | none => exact .unrecognized hc hop
      | some op => exact .decoded op hc (byte_of_decodeOp hop)
    · exact .pastEnd hrun hpc
  · exact .ended hrun

/-- The instruction an operation makes of the operand bytes at pc (R304). -/
abbrev State.instrAtPc (s : State) (op : Op) : Instr :=
  op.instr (s.byteAt (s.pc.toNat + 1)) (s.byteAt (s.pc.toNat + 2))

/-- The opcode byte as a fault record holds it: where the read at pc succeeded (R605). -/
abbrev State.recordedOpcode (s : State) : Option Byte := if s.pc.toNat ≤ 255 then some s.opcodeAtPc else none

/-- The first address at which the fetch fails (R402). -/
abbrev State.firstFailingAddress (s : State) : Int := if s.pc.toNat ≤ 256 then 256 else s.pc.toNat

theorem recordedOpcode_of_canFetch (hc : s.CanFetch) : s.recordedOpcode = some s.opcodeAtPc := by
  obtain ⟨-, hpc⟩ := hc
  exact if_pos (by omega)

theorem step_of_pastEnd (hrun : s.run = .running) (hpc : 254 ≤ s.pc.toNat) :
    step s = .next (takeFault s.recordedOpcode (.outOfBounds s.firstFailingAddress) s) :=
  step_of_fetch_error hrun (fetch_error hpc)

theorem step_of_unrecognized (hc : s.CanFetch) (hop : decodeOp s.opcodeAtPc = none) :
    step s = .next (takeFault (some s.opcodeAtPc) (.unsupportedOperation s.opcodeAtPc) s) := by
  obtain ⟨hrun, hpc⟩ := hc
  have hd := decode_of_unrecognized (decodeOp_eq_none_iff.mp hop) (s.byteAt (s.pc.toNat + 1)) (s.byteAt (s.pc.toNat + 2))
  rw [State.opcodeAtPc] at hd
  simp only [step, cycle, hrun, runningStep, fetch_ok hpc, decodeAndExecute, hd]
  rfl

theorem step_of_decoded {op : Op} (hc : s.CanFetch) (hop : op.byte = s.opcodeAtPc) :
    step s = exec (s.instrAtPc op) s :=
  step_of_decode hc (hop ▸ decode_byte op _ _)

/-- Settles O37: an instruction answers a next state in every state, and so does each phase that runs none. -/
theorem everyStepAnswersANextState : Obligations.EveryStepAnswersANextState := by
  have hexec : ∀ (i : Instr) (s : State), ∃ t, exec i s = .next t := fun i s => (exec_total i s).imp fun _ h => h.1
  refine ⟨fun s => ?_, hexec⟩
  cases stepPhase s with
  | ended hrun => exact ⟨_, step_of_not_running hrun⟩
  | pastEnd hrun hpc => exact ⟨_, step_of_pastEnd hrun hpc⟩
  | unrecognized hc hop => exact ⟨_, step_of_unrecognized hc hop⟩
  | decoded op hc hop => rw [step_of_decoded hc hop]; exact hexec _ s

/-- Settles O11: the fetch reads the three bytes at pc, and the step executes what they decode to. -/
theorem stepRunsTheDecodedInstruction : Obligations.StepRunsTheDecodedInstruction :=
  fun _ _ hc hd => step_of_decode hc hd

/-- Settles O13: the fetch fails at the first address above 255, and the step is that fault entry. -/
theorem fetchPastTheEndFaults : Obligations.FetchPastTheEndFaults :=
  fun s hrun hpc => ⟨_, step_of_pastEnd hrun hpc, takeFault_faultedFrom s.recordedOpcode (.outOfBounds s.firstFailingAddress)⟩

/-- The byte values of R306 are the bytes of the operations, so a byte outside them is none's. -/
theorem decodeOp_eq_none_of_not_mem {b : Byte}
    (h : b.toNat ∉ [0x01, 0x82, 0x47, 0xA0, 0xA2, 0x45, 0x46, 0x50, 0x11, 0xA7, 0x54, 0x55, 0x56]) : decodeOp b = none := by
  have hbytes : ∀ op : Op,
      op.byte.toNat ∈ [0x01, 0x82, 0x47, 0xA0, 0xA2, 0x45, 0x46, 0x50, 0x11, 0xA7, 0x54, 0x55, 0x56] := by
    intro op
    cases op <;> decide
  refine decodeOp_eq_none_iff.mpr ?_
  rintro op rfl
  exact h (hbytes op)

/-- Settles O14: a byte outside the map decodes to no operation, and the step is that fault entry. -/
theorem unrecognizedOpcodeFaults : Obligations.UnrecognizedOpcodeFaults :=
  fun s hc hop => ⟨_, step_of_unrecognized hc (decodeOp_eq_none_of_not_mem hop),
    takeFault_faultedFrom _ (.unsupportedOperation s.opcodeAtPc)⟩

end Sys2Proof.Machine
end

section
/-! SUPPORT. The faults of an instruction (spec/60_exceptions.md R600, R603). -/

namespace Sys2Proof.Machine

variable {s t : State} {i : Instr} {f : CoreFault}

/-- The first operand byte used as a register index that names no register (R406). -/
abbrev firstIllegal (i : Instr) : Option Byte := i.registerOperands.find? fun o => decide (8 ≤ o.toNat)

theorem wellFormed_iff : i.wellFormed = true ↔ firstIllegal i = none := by
  simp [Instr.wellFormed, List.find?_eq_none, namesRegister]

/-- The faults that executing an instruction can take. -/
inductive InstrRaises (i : Instr) : CoreFault → Prop where
  | illegal {x : Byte} (h : firstIllegal i = some x) : InstrRaises i (.illegalRegister x)
  | underflow (hop : i.op = .push ∨ i.op = .call) (hw : i.wellFormed = true) : InstrRaises i (.stackBounds (-1))
  | overflow (hop : i.op = .pop ∨ i.op = .ret) (hw : i.wellFormed = true) : InstrRaises i (.stackBounds 256)

/-- An ill-formed instruction raises the IllegalRegister of its first illegal operand, and nothing else. -/
theorem InstrRaises.eq_illegalRegister {x : Byte} (h : InstrRaises i f) (hx : firstIllegal i = some x) :
    f = .illegalRegister x := by
  cases h with
  | illegal hy => rw [Option.some.inj (hx.symm.trans hy)]
  | underflow _ hw => cases hx.symm.trans (wellFormed_iff.mp hw)
  | overflow _ hw => cases hx.symm.trans (wellFormed_iff.mp hw)

/-- A well-formed instruction raises StackBounds alone. -/
theorem InstrRaises.cause_eq_stackBounds (h : InstrRaises i f) (hw : i.wellFormed = true) : f.cause = .stackBounds := by
  cases h with
  | illegal hx => cases hx.symm.trans (wellFormed_iff.mp hw)
  | underflow _ _ => rfl
  | overflow _ _ => rfl

theorem wellFormed_binary {a b : Byte} (ha : a.toNat < 8) (hb : b.toNat < 8) : [a, b].all namesRegister = true := by
  simp [namesRegister, ha, hb]

/-- A conditional jump touches pc alone. -/
theorem conditionalJump_eq_setPc (s : State) (taken : Bool) (v : Byte) (k : Nat) :
    (if taken then s.jumpTo v else s.advance k) =
      s.setPc (if taken then v.setWidth 9 else BitVec.ofNat 9 (s.pc.toNat + k)) := (apply_ite s.setPc _ _ _).symm

/-- An instruction completes, leaving FAULT alone and RUN too unless it is HALT, or takes one of its faults. -/
theorem Answers.completes_or_raises (h : Answers s i t) :
    (i.wellFormed = true ∧ t.fault = s.fault ∧ (t.run = s.run ∨ i = .halt ∧ t.run = .halted)) ∨
      ∃ f, InstrRaises i f ∧ t = takeFault (some i.op.byte) f s := by
  cases h with
  | halt => exact .inl ⟨rfl, rfl, .inr ⟨rfl, rfl⟩⟩
  | loadImmediate ha => exact .inl ⟨wellFormed_unary ha, rfl, .inl rfl⟩
  | printRegister ha => exact .inl ⟨wellFormed_unary ha, rfl, .inl rfl⟩
  | add ha hb => exact .inl ⟨wellFormed_binary ha hb, rfl, .inl rfl⟩
  | multiply ha hb => exact .inl ⟨wellFormed_binary ha hb, rfl, .inl rfl⟩
  | push ha _ => exact .inl ⟨wellFormed_unary ha, rfl, .inl rfl⟩
  | pop ha _ => exact .inl ⟨wellFormed_unary ha, rfl, .inl rfl⟩
  | call ha _ => exact .inl ⟨wellFormed_unary ha, rfl, .inl rfl⟩
  | ret _ => exact .inl ⟨rfl, rfl, .inl rfl⟩
  | compare ha hb => exact .inl ⟨wellFormed_binary ha hb, rfl, .inl rfl⟩
  | jump ha => exact .inl ⟨wellFormed_unary ha, rfl, .inl rfl⟩
  | jumpIfEqual ha =>
    rw [conditionalJump_eq_setPc]
    exact .inl ⟨wellFormed_unary ha, rfl, .inl rfl⟩
  | jumpIfNotEqual ha =>
    rw [conditionalJump_eq_setPc]
    exact .inl ⟨wellFormed_unary ha, rfl, .inl rfl⟩
  | illegal hx => exact .inr ⟨_, .illegal hx, rfl⟩
  | underflow hop hw _ => exact .inr ⟨_, .underflow hop hw, rfl⟩
  | overflow hop hw => exact .inr ⟨_, .overflow hop hw, rfl⟩

/-- An ill-formed instruction takes the IllegalRegister of its first illegal operand in every state (R406). -/
theorem exec_of_illegal {x : Byte} (s : State) (hx : firstIllegal i = some x) :
    exec i s = .next (takeFault (some i.op.byte) (.illegalRegister x) s) := by
  obtain ⟨t, ht, ha⟩ := exec_total i s
  obtain ⟨hw, -, -⟩ | ⟨f, hf, rfl⟩ := ha.completes_or_raises
  · cases hx.symm.trans (wellFormed_iff.mp hw)
  · rw [ht, hf.eq_illegalRegister hx]

end Sys2Proof.Machine
end

section
/-! SUPPORT. The seven blocks composed compute the step (spec/40_core_cycle.md R400, R405, R411): the execute phase row by row of the
control table, the operand check, and the phases. -/

namespace Sys2Proof.Machine

/-! ### The execute phase of the blocks: the stack port first (R411) -/

/-- The byte that a load into R7 hands to the increment of SP (R415, R419). -/
def poppedPort (c : Controls) (a : Byte) (s : State) : Option Byte :=
  match c.regWrite with
  | some .mem => if portIndex a = Config.spIndex then some (portRead s.mem s.sp) else none
  | _ => none

/-- What stack_pointer_logic drives in the execute phase of these controls. -/
def stackPort (c : Controls) (a : Byte) (s : State) : StackOut := stackPointerLogic s.sp (poppedPort c a s) c.spOp

/-- The SP on the read ports of register_file (R415). -/
def updatedSpPort (c : Controls) (a : Byte) (s : State) : Option Byte :=
  match c.spOp with
  | .dec => some (BitVec.ofInt 8 (stackPort c a s).newSp)
  | .inc => none
  | .none => none

variable {instr a b : Byte} {c : Controls} {n : BitVec 2} {s : State}

theorem executeBlocks_of_stackFault (h : (stackPort c a s).fault = true) :
    executeBlocks instr a b c n s = takeFault (some instr) (.stackBounds (stackPort c a s).newSp) s := by
  change (match (stackPort c a s).fault with | true => _ | false => _) = _
  rw [h]
  rfl

theorem executeBlocks_of_noAlu (h : (stackPort c a s).fault = false) (htag : c.aluTag = none) :
    executeBlocks instr a b c n s =
      writeBack c n a b (stackPort c a s) (portRead s.mem s.sp) (readPort s.regs (portIndex a) (updatedSpPort c a s))
        none s := by
  change (match (stackPort c a s).fault with | true => _ | false => match c.aluTag with | none => _ | some _ => _) = _
  rw [h, htag]
  rfl

theorem executeBlocks_of_alu {tag : AluTag} {y : Byte} (h : (stackPort c a s).fault = false)
    (htag : c.aluTag = some tag)
    (hy : alu tag (readPort s.regs (portIndex a) (updatedSpPort c a s))
      (readPort s.regs (portIndex b) (updatedSpPort c a s)) = .ok y) :
    executeBlocks instr a b c n s =
      writeBack c n a b (stackPort c a s) (portRead s.mem s.sp) (readPort s.regs (portIndex a) (updatedSpPort c a s))
        (some y) s := by
  change (match (stackPort c a s).fault with
    | true => _
    | false => match c.aluTag with
      | none => _
      | some tag => match alu tag (readPort s.regs (portIndex a) (updatedSpPort c a s))
          (readPort s.regs (portIndex b) (updatedSpPort c a s)) with
        | .ok _ => _
        | .error _ => _) = _
  rw [h, htag]
  simp only [hy]
  rfl

theorem stackPort_dec (hop : c.spOp = .dec) : stackPort c a s = ⟨spDec s.sp, s.spDown, outOfRange (spDec s.sp)⟩ := by
  rw [stackPort, hop]
  rfl

theorem stackPort_ret (a : Byte) (s : State) :
    stackPort (controls .ret) a s = ⟨spInc s.sp, s.sp, outOfRange (spInc s.sp)⟩ := rfl

/-- The SP that POP's increment starts from is the one in the register file after the load. -/
theorem stackPort_pop (a : Byte) (s : State) :
    stackPort (controls .pop) a s =
      ⟨spInc (s.afterLoad (portIndex a)).sp, s.sp, outOfRange (spInc (s.afterLoad (portIndex a)).sp)⟩ := by
  have hsp : (poppedPort (controls .pop) a s).getD s.sp = (s.afterLoad (portIndex a)).sp := by
    rw [poppedPort, State.sp, State.sp, reg_setReg]
    by_cases h : portIndex a = Config.spIndex
    · rw [if_pos h, if_pos h.symm]
      rfl
    · rw [if_neg h, if_neg (Ne.symm h)]
      rfl
  rw [← hsp]
  rfl


/-! ### Row by row of the control table (R405) -/

/-- The execute phase of the blocks for an operation, its byte on the instruction port. -/
abbrev executeOp (op : Op) (a b : Byte) (s : State) : State :=
  executeBlocks op.byte a b (controls op) (op.byte.extractLsb 7 6) s

section Rows

variable (a b : Byte) (s : State)

theorem executeOp_halt : executeOp .halt a b s = s.setRun .halted := rfl

theorem executeOp_loadImmediate : executeOp .loadImmediate a b s = (s.setReg (portIndex a) b).advance 3 := rfl

theorem executeOp_printRegister : executeOp .printRegister a b s = (s.emit (s.reg (portIndex a))).advance 2 := rfl

theorem executeOp_add :
    executeOp .add a b s = (s.setReg (portIndex a) (s.reg (portIndex a) + s.reg (portIndex b))).advance 3 := rfl

theorem executeOp_multiply :
    executeOp .multiply a b s = (s.setReg (portIndex a) (s.reg (portIndex a) * s.reg (portIndex b))).advance 3 := rfl

theorem executeOp_compare :
    executeOp .compare a b s = (s.setFl (compareFl (s.reg (portIndex a)) (s.reg (portIndex b)))).advance 3 := rfl

theorem executeOp_jump : executeOp .jump a b s = s.jumpTo (s.reg (portIndex a)) := rfl

theorem executeOp_jumpIfEqual :
    executeOp .jumpIfEqual a b s = if isEqual s.fl then s.jumpTo (s.reg (portIndex a)) else s.advance 2 := by
  have h : executeOp .jumpIfEqual a b s =
      s.setPc (if isEqual s.fl then (s.reg (portIndex a)).setWidth 9 else BitVec.ofNat 9 (s.pc.toNat + 2)) := rfl
  rw [h, apply_ite s.setPc]
  rfl

theorem executeOp_jumpIfNotEqual :
    executeOp .jumpIfNotEqual a b s = if !isEqual s.fl then s.jumpTo (s.reg (portIndex a)) else s.advance 2 := by
  have h : executeOp .jumpIfNotEqual a b s =
      s.setPc (if isEqual s.fl then BitVec.ofNat 9 (s.pc.toNat + 2) else (s.reg (portIndex a)).setWidth 9) := rfl
  rw [h, apply_ite s.setPc]
  cases isEqual s.fl <;> rfl

end Rows

section StackRows

variable {a : Byte} (b : Byte) {s : State}

theorem spDec_inRange (h : 1 ≤ s.sp.toNat) : outOfRange (spDec s.sp) = false := by
  have hlt := s.sp.isLt
  rw [← Bool.not_eq_true, outOfRange_iff, spDec]
  omega

theorem spInc_inRange (h : s.sp.toNat ≤ 254) : outOfRange (spInc s.sp) = false := by
  rw [← Bool.not_eq_true, outOfRange_iff, spInc]
  omega

theorem spDec_of_zero (h : s.sp.toNat = 0) : spDec s.sp = -1 := by rw [spDec, h]; rfl

theorem spInc_of_max (h : s.sp.toNat = 255) : spInc s.sp = 256 := by rw [spInc, h]; rfl

theorem executeOp_push (hsp : 1 ≤ s.sp.toNat) :
    executeOp .push a b s =
      ((s.setReg Config.spIndex s.spDown).setMem (s.mem.write s.spDown.toNat
        ((s.setReg Config.spIndex s.spDown).reg (portIndex a)))).advance 2 := by
  rw [← readPort_updatedSp]
  exact executeBlocks_of_noAlu (spDec_inRange hsp) rfl

theorem executeOp_call (hsp : 1 ≤ s.sp.toNat) :
    executeOp .call a b s =
      ((s.setReg Config.spIndex s.spDown).setMem (s.mem.write s.spDown.toNat
        (BitVec.ofNat 8 (s.pc.toNat + 2)))).jumpTo ((s.setReg Config.spIndex s.spDown).reg (portIndex a)) := by
  rw [← readPort_updatedSp]
  exact executeBlocks_of_noAlu (spDec_inRange hsp) rfl

/-- Where stack_pointer_logic drives `stack_fault`, the execute phase takes StackBounds with the new SP value (R419). -/
theorem executeOp_of_stackFault {op : Op} {v : Int} {x : Byte} (h : stackPort (controls op) a s = ⟨v, x, true⟩) :
    executeOp op a b s = takeFault (some op.byte) (.stackBounds v) s := by
  rw [executeOp, executeBlocks_of_stackFault (by rw [h]), h]

theorem executeOp_underflow {op : Op} (hop : (controls op).spOp = .dec) (hsp : s.sp.toNat = 0) :
    executeOp op a b s = takeFault (some op.byte) (.stackBounds (-1)) s := by
  refine executeOp_of_stackFault b (x := s.spDown) ?_
  rw [stackPort_dec hop, spDec_of_zero hsp]
  rfl

theorem executeOp_ret (hsp : s.sp.toNat ≤ 254) :
    executeOp .ret a b s = (s.setReg Config.spIndex s.spUp).jumpTo (s.byteAt s.sp.toNat) :=
  executeBlocks_of_noAlu (spInc_inRange hsp) rfl

theorem executeOp_ret_fault (hsp : s.sp.toNat = 255) :
    executeOp .ret a b s = takeFault (some Op.ret.byte) (.stackBounds 256) s := by
  refine executeOp_of_stackFault b (x := s.sp) ?_
  rw [stackPort_ret, spInc_of_max hsp]
  rfl

theorem executeOp_pop (hsp : (s.afterLoad (portIndex a)).sp.toNat ≤ 254) :
    executeOp .pop a b s =
      ((s.afterLoad (portIndex a)).setReg Config.spIndex (s.afterLoad (portIndex a)).spUp).advance 2 := by
  rw [executeOp, executeBlocks_of_noAlu (by rw [stackPort_pop]; exact spInc_inRange hsp) rfl, stackPort_pop]
  rfl

theorem executeOp_pop_fault (hsp : (s.afterLoad (portIndex a)).sp.toNat = 255) :
    executeOp .pop a b s = takeFault (some Op.pop.byte) (.stackBounds 256) s := by
  refine executeOp_of_stackFault b (x := s.sp) ?_
  rw [stackPort_pop, spInc_of_max hsp]
  rfl

end StackRows

/-! ### The operand check, in the blocks and in the instruction rules (R406) -/

/-- The operands checked, then the execute phase. -/
def executeChecked (op : Op) (a b : Byte) (s : State) : State :=
  if (controls op).usesA && decide (7 < a.toNat) then takeFault (some op.byte) (.illegalRegister a) s
  else if (controls op).usesB && decide (7 < b.toNat) then takeFault (some op.byte) (.illegalRegister b) s
  else executeOp op a b s

/-- The columns uses_a and uses_b are the register operands of the instruction (R405). -/
theorem registerOperands_instr (op : Op) (a b : Byte) :
    (op.instr a b).registerOperands =
      (if (controls op).usesA then [a] else []) ++ (if (controls op).usesB then [b] else []) := by
  cases op <;> rfl

theorem find?_operandColumn (uses : Bool) (x : Byte) :
    (if uses then [x] else []).find? (fun o => decide (8 ≤ o.toNat)) =
      if uses && decide (7 < x.toNat) then some x else none := by
  cases uses with
  | false => rfl
  | true => by_cases hx : 7 < x.toNat <;> simp [hx, Nat.succ_le_iff]

/-- The check of the blocks takes the fault of the first illegal operand, and passes where there is none. -/
theorem executeChecked_eq (op : Op) (a b : Byte) (s : State) :
    executeChecked op a b s = match firstIllegal (op.instr a b) with
      | some x => takeFault (some op.byte) (.illegalRegister x) s
      | none => executeOp op a b s := by
  rw [firstIllegal, registerOperands_instr, List.find?_append, find?_operandColumn, find?_operandColumn, executeChecked]
  by_cases ha : ((controls op).usesA && decide (7 < a.toNat)) = true
  · rw [if_pos ha, if_pos ha]
    rfl
  · rw [if_neg ha, if_neg ha]
    split <;> rfl

theorem lt_of_wellFormed_unary {a : Byte} (h : [a].all namesRegister = true) : a.toNat < 8 := by
  simpa [namesRegister] using h

theorem lt_of_wellFormed_binary {a b : Byte} (h : [a, b].all namesRegister = true) : a.toNat < 8 ∧ b.toNat < 8 := by
  simpa [namesRegister] using h

theorem exec_of_wellFormed {op : Op} {a b : Byte} (s : State) (h : (op.instr a b).wellFormed = true) :
    exec (op.instr a b) s = .next (executeOp op a b s) := by
  cases op with
  | halt =>
    rw [executeOp_halt]
    exact exec_halt
  | loadImmediate =>
    have ha := lt_of_wellFormed_unary h
    rw [executeOp_loadImmediate, portIndex_of_lt ha]
    exact exec_loadImmediate ha
  | printRegister =>
    have ha := lt_of_wellFormed_unary h
    rw [executeOp_printRegister, portIndex_of_lt ha]
    exact exec_printRegister ha
  | add =>
    obtain ⟨ha, hb⟩ := lt_of_wellFormed_binary h
    rw [executeOp_add, portIndex_of_lt ha, portIndex_of_lt hb]
    exact exec_add ha hb
  | multiply =>
    obtain ⟨ha, hb⟩ := lt_of_wellFormed_binary h
    rw [executeOp_multiply, portIndex_of_lt ha, portIndex_of_lt hb]
    exact exec_multiply ha hb
  | push =>
    have ha := lt_of_wellFormed_unary h
    rcases Nat.eq_zero_or_pos s.sp.toNat with hsp | hsp
    · rw [executeOp_underflow b rfl hsp]
      exact exec_push_fault ha hsp
    · rw [executeOp_push b hsp, portIndex_of_lt ha]
      exact exec_push ha hsp
  | pop =>
    have ha := lt_of_wellFormed_unary h
    have hlt := (s.afterLoad ⟨a.toNat, ha⟩).sp.isLt
    rw [← portIndex_of_lt ha] at hlt
    rcases Nat.lt_or_ge (s.afterLoad (portIndex a)).sp.toNat 255 with hsp | hsp
    · rw [executeOp_pop b (by omega)]
      rw [portIndex_of_lt ha] at hsp ⊢
      exact exec_pop ha (by omega)
    · rw [executeOp_pop_fault b (by omega)]
      rw [portIndex_of_lt ha] at hsp hlt
      exact exec_pop_fault ha (by omega)
  | call =>
    have ha := lt_of_wellFormed_unary h
    rcases Nat.eq_zero_or_pos s.sp.toNat with hsp | hsp
    · rw [executeOp_underflow b rfl hsp]
      exact exec_call_fault ha hsp
    · rw [executeOp_call b hsp, portIndex_of_lt ha]
      exact exec_call ha hsp
  | ret =>
    have hlt := s.sp.isLt
    rcases Nat.lt_or_ge s.sp.toNat 255 with hsp | hsp
    · rw [executeOp_ret b (by omega)]
      exact exec_ret (by omega)
    · rw [executeOp_ret_fault b (by omega)]
      exact exec_ret_fault (by omega)
  | compare =>
    obtain ⟨ha, hb⟩ := lt_of_wellFormed_binary h
    rw [executeOp_compare, portIndex_of_lt ha, portIndex_of_lt hb]
    exact exec_compare ha hb
  | jump =>
    have ha := lt_of_wellFormed_unary h
    rw [executeOp_jump, portIndex_of_lt ha]
    exact exec_jump ha
  | jumpIfEqual =>
    have ha := lt_of_wellFormed_unary h
    rw [executeOp_jumpIfEqual, portIndex_of_lt ha]
    exact exec_jumpIfEqual ha
  | jumpIfNotEqual =>
    have ha := lt_of_wellFormed_unary h
    rw [executeOp_jumpIfNotEqual, portIndex_of_lt ha]
    exact exec_jumpIfNotEqual ha

theorem exec_eq_executeChecked (op : Op) (a b : Byte) (s : State) :
    exec (op.instr a b) s = .next (executeChecked op a b s) := by
  rw [executeChecked_eq]
  cases hx : firstIllegal (op.instr a b) with
  | some x => rw [exec_of_illegal s hx, op_instr]
  | none => exact exec_of_wellFormed s (wellFormed_iff.mpr hx)

/-! ### The composition, phase by phase (R411) -/

theorem datapath_of_not_running (hrun : s.run ≠ .running) : datapath s = s := by
  have hf : fetchUnit s.mem s.pc (s.run == .running) = ⟨none, none, none, none⟩ := by simp [fetchUnit, hrun]
  simp only [datapath, hf]

/-- fetch_unit where the fetch fails: the opcode byte if pc addresses one, and the first failing address. -/
theorem fetchUnit_of_pastEnd (hrun : s.run = .running) (hpc : 254 ≤ s.pc.toNat) :
    ∃ opa v, fetchUnit s.mem s.pc (s.run == .running) = ⟨s.recordedOpcode, opa, none, some v⟩ ∧
      (v.toNat : Int) = s.firstFailingAddress := by
  have hcases : s.pc.toNat = 254 ∨ s.pc.toNat = 255 ∨ 255 < s.pc.toNat := by omega
  obtain h | h | h := hcases
  · refine ⟨some (s.byteAt 255), 256, ?_, by simp [h]⟩
    simp [fetchUnit, hrun, h, portRead, byteAt_eq, State.opcodeAtPc]
  · refine ⟨none, 256, ?_, by simp [h]⟩
    simp [fetchUnit, hrun, h, portRead, byteAt_eq, State.opcodeAtPc]
  · refine ⟨none, s.pc, ?_, ?_⟩
    · simp [fetchUnit, hrun, h, Nat.not_le.mpr h]
    · rw [State.firstFailingAddress]
      split <;> omega

theorem datapath_of_pastEnd (hrun : s.run = .running) (hpc : 254 ≤ s.pc.toNat) :
    datapath s = takeFault s.recordedOpcode (.outOfBounds s.firstFailingAddress) s := by
  obtain ⟨opa, v, hf, hv⟩ := fetchUnit_of_pastEnd hrun hpc
  simp only [datapath, hf, hv]

theorem datapath_of_unrecognized (hc : s.CanFetch) (hop : decodeOp s.opcodeAtPc = none) :
    datapath s = takeFault (some s.opcodeAtPc) (.unsupportedOperation s.opcodeAtPc) s := by
  simp only [datapath, fetchUnit_of_canFetch hc, instructionDecoder, hop]
  rfl

theorem datapath_of_decoded {op : Op} (hc : s.CanFetch) (hop : op.byte = s.opcodeAtPc) :
    datapath s = executeChecked op (s.byteAt (s.pc.toNat + 1)) (s.byteAt (s.pc.toNat + 2)) s := by
  simp only [datapath, fetchUnit_of_canFetch hc, instructionDecoder, ← hop, decodeOp_byte]
  rfl

/-- Settles O48, phase by phase: the blocks and the rules agree where no step is taken, where the fetch or the decode fails, and
where an operation runs, row by row of the control table. -/
theorem datapathRefinesStep : Obligations.DatapathRefinesStep := by
  intro s
  cases stepPhase s with
  | ended hrun => rw [step_of_not_running hrun, datapath_of_not_running hrun]
  | pastEnd hrun hpc => rw [step_of_pastEnd hrun hpc, datapath_of_pastEnd hrun hpc]
  | unrecognized hc hop => rw [step_of_unrecognized hc hop, datapath_of_unrecognized hc hop]
  | decoded op hc hop => rw [step_of_decoded hc hop, datapath_of_decoded hc hop, exec_eq_executeChecked]

end Sys2Proof.Machine
end

section
/-! SUPPORT. The faults of a step (spec/60_exceptions.md R603 to R605): which ones it can take, in the order of its phases, and that a
step which takes none completes an instruction. -/

namespace Sys2Proof.Machine

variable {s t : State} {f : CoreFault}

/-! ### The faults of an instruction -/

theorem execFaults_of_takeFault {i : Instr} {b : Byte} (h : exec i s = .next (takeFault (some b) f s)) :
    ExecFaults i s f.cause b f.info :=
  ⟨_, h, takeFault_faultedFrom (some b) f⟩

theorem exec_completes_or_raises {i : Instr} (h : exec i s = .next t) :
    (i.wellFormed = true ∧ t.fault = s.fault ∧ (t.run = s.run ∨ i = .halt ∧ t.run = .halted)) ∨
      ∃ f, InstrRaises i f ∧ t = takeFault (some i.op.byte) f s :=
  (exec_cases h).completes_or_raises

/-- Settles O15: an ill-formed instruction takes the fault of its first illegal operand in every state, and a well-formed one raises
StackBounds alone. -/
theorem illegalRegisterExactlyWhenIllFormed : Obligations.IllegalRegisterExactlyWhenIllFormed := by
  refine fun i s => ⟨fun x hx => ⟨?illFormed, execFaults_of_takeFault (exec_of_illegal s hx)⟩, fun hnone => ?legal⟩
  case illFormed =>
    rw [← Bool.not_eq_true, wellFormed_iff]
    exact fun hnone => Option.some_ne_none x (hx.symm.trans hnone)
  case legal =>
    have hw := wellFormed_iff.mpr hnone
    refine ⟨hw, fun t r ht hs hr => ?_⟩
    obtain ⟨-, hfault, -⟩ | ⟨f, hf, rfl⟩ := exec_completes_or_raises ht
    · cases hr.symm.trans (hfault.trans hs)
    · cases hr
      exact (hf.cause_eq_stackBounds hw).trans_ne (by decide)

/-- Settles O16, phase by phase: the fetch before the decode, the decode before the operands, and a well-formed instruction raises
StackBounds alone. -/
theorem firstFaultInPhaseOrderIsReported : Obligations.FirstFaultInPhaseOrderIsReported := by
  refine fun s i hrun => ⟨fun hpc => ⟨_, _, step_of_pastEnd hrun hpc, rfl, rfl⟩,
    fun hpc hop => ⟨_, _, step_of_unrecognized ⟨hrun, hpc⟩ hop, rfl, rfl⟩, fun hpc hd => ?_⟩
  have hstep : step s = exec i s := step_of_decode ⟨hrun, hpc⟩ hd
  rw [hstep]
  refine ⟨fun x hx => ⟨_, _, exec_of_illegal s hx, rfl, rfl, rfl⟩, fun hw t ht hfaulted => ?_⟩
  obtain ⟨-, -, hr⟩ | ⟨f, hf, rfl⟩ := exec_completes_or_raises ht
  · obtain hr | ⟨-, hr⟩ := hr
    · cases hfaulted.symm.trans (hr.trans hrun)
    · cases hfaulted.symm.trans hr
  · exact ⟨_, rfl, hf.cause_eq_stackBounds hw⟩

/-! ### The faults of a step -/

/-- The faults that a step can take, one constructor per phase. -/
inductive StepRaises (s : State) : CoreFault → Prop where
  | fetch (hpc : 254 ≤ s.pc.toNat) : StepRaises s (.outOfBounds s.firstFailingAddress)
  | decode (hpc : s.pc.toNat ≤ 253) (hop : decodeOp s.opcodeAtPc = none) :
      StepRaises s (.unsupportedOperation s.opcodeAtPc)
  | execute {f : CoreFault} (op : Op) (hpc : s.pc.toNat ≤ 253) (hop : op.byte = s.opcodeAtPc)
      (hf : InstrRaises (s.instrAtPc op) f) : StepRaises s f

/-- Everything the step of a Running state can do to RUN and FAULT. -/
theorem step_completes_or_raises (hrun : s.run = .running) (h : step s = .next t) :
    (s.CanFetch ∧ t.fault = s.fault ∧ (t.run = .running ∨ t.run = .halted ∧ s.opcodeAtPc = 0x01)) ∨
      ∃ f, StepRaises s f ∧ t = takeFault s.recordedOpcode f s := by
  cases stepPhase s with
  | ended hne => exact absurd hrun hne
  | pastEnd _ hpc =>
    cases h.symm.trans (step_of_pastEnd hrun hpc)
    exact .inr ⟨_, .fetch hpc, rfl⟩
  | unrecognized hc hop =>
    cases h.symm.trans (step_of_unrecognized hc hop)
    exact .inr ⟨_, .decode hc.2 hop, by rw [recordedOpcode_of_canFetch hc]⟩
  | decoded op hc hop =>
    rw [step_of_decoded hc hop] at h
    obtain ⟨-, hfault, hr⟩ | ⟨f, hf, rfl⟩ := exec_completes_or_raises h
    · refine .inl ⟨hc, hfault, ?_⟩
      obtain hr | ⟨hi, hr⟩ := hr
      · exact .inl (hr.trans hrun)
      · have hhalt : op = .halt := (op_instr op _ _).symm.trans (congrArg Instr.op hi)
        exact .inr ⟨hr, by rw [← hop, hhalt]; rfl⟩
    · exact .inr ⟨f, .execute op hc.2 hop hf, by rw [recordedOpcode_of_canFetch hc, op_instr, hop]⟩

/-- A step that ends Faulted is fault entry. -/
theorem raises_of_faulted (hrun : s.run = .running) (h : step s = .next t) (ht : t.run = .faulted) :
    ∃ f, StepRaises s f ∧ t = takeFault s.recordedOpcode f s := by
  obtain ⟨-, -, hr | ⟨hr, -⟩⟩ | hraises := step_completes_or_raises hrun h
  · cases ht.symm.trans hr
  · cases ht.symm.trans hr
  · exact hraises

/-- Settles O17: fault entry writes RUN and FAULT alone. -/
theorem faultingStepChangesNothingElse : Obligations.FaultingStepChangesNothingElse := by
  intro s t hrun h ht
  obtain ⟨f, -, rfl⟩ := raises_of_faulted hrun h ht
  exact ⟨_, rfl, rfl, rfl⟩

/-- Settles O19: a step that completes leaves RUN Running unless it runs HALT, and one that does not is fault entry. -/
theorem runLeavesRunningOnlyByHaltOrFault : Obligations.RunLeavesRunningOnlyByHaltOrFault := by
  intro s t hrun h ht
  obtain ⟨hc, -, hr | ⟨hr, hop⟩⟩ | ⟨f, -, rfl⟩ := step_completes_or_raises hrun h
  · exact absurd hr ht
  · exact .inl ⟨hr, hc, hop⟩
  · exact .inr ⟨rfl, rfl⟩

/-- Settles O20: a state that is not Running is one that a step leaves as it is. -/
theorem endedRunsStayAsTheyAre : Obligations.EndedRunsStayAsTheyAre :=
  fun _ n hrun => core_run_of_step_eq_self (step_of_not_running hrun) n

end Sys2Proof.Machine
end

section
/-! SUPPORT. The invariant of the machine (spec/10_state.md R100 to R114): what every instruction does to memory, FL and pc, the legal
record of every fault of a step, and the invariant along every run. -/

namespace Sys2Proof.Machine

variable {s t : State} {i : Instr} {f : CoreFault}

/-! ### What an instruction does to one part of the state -/

/-- PUSH and CALL store one byte just below SP; no other instruction writes memory. -/
theorem Answers.mem_cases (h : Answers s i t) :
    t.mem = s.mem ∨
      (i.op = .push ∨ i.op = .call) ∧ 1 ≤ s.sp.toNat ∧ ∃ v, t.mem = s.mem.write s.spDown.toNat v := by
  cases h with
  | push _ hsp => exact .inr ⟨.inl rfl, hsp, _, rfl⟩
  | call _ hsp => exact .inr ⟨.inr rfl, hsp, _, rfl⟩
  | jumpIfEqual _ => rw [conditionalJump_eq_setPc]; exact .inl rfl
  | jumpIfNotEqual _ => rw [conditionalJump_eq_setPc]; exact .inl rfl
  | _ => exact .inl rfl

/-- COMPARE writes FL, with the code of a comparison; no other instruction does. -/
theorem Answers.fl_cases (h : Answers s i t) :
    t.fl = s.fl ∨ i.op = .compare ∧ ∃ x y, t.fl = compareFl x y := by
  cases h with
  | compare _ _ => exact .inr ⟨rfl, _, _, rfl⟩
  | jumpIfEqual _ => rw [conditionalJump_eq_setPc]; exact .inl rfl
  | jumpIfNotEqual _ => rw [conditionalJump_eq_setPc]; exact .inl rfl
  | _ => exact .inl rfl

/-- pc stays, advances by at most three, or becomes a byte, so it never passes 256 (R108). -/
theorem Answers.pc_cases (h : Answers s i t) :
    t.pc = s.pc ∨ (∃ k ≤ 3, t.pc = (s.advance k).pc) ∨ ∃ v : Byte, t.pc = (s.jumpTo v).pc := by
  cases h with
  | halt => exact .inl rfl
  | loadImmediate _ => exact .inr (.inl ⟨3, by decide, rfl⟩)
  | printRegister _ => exact .inr (.inl ⟨2, by decide, rfl⟩)
  | add _ _ => exact .inr (.inl ⟨3, by decide, rfl⟩)
  | multiply _ _ => exact .inr (.inl ⟨3, by decide, rfl⟩)
  | push _ _ => exact .inr (.inl ⟨2, by decide, rfl⟩)
  | pop _ _ => exact .inr (.inl ⟨2, by decide, rfl⟩)
  | call _ _ => exact .inr (.inr ⟨_, rfl⟩)
  | ret _ => exact .inr (.inr ⟨_, rfl⟩)
  | compare _ _ => exact .inr (.inl ⟨3, by decide, rfl⟩)
  | jump _ => exact .inr (.inr ⟨_, rfl⟩)
  | jumpIfEqual _ =>
    split
    · exact .inr (.inr ⟨_, rfl⟩)
    · exact .inr (.inl ⟨2, by decide, rfl⟩)
  | jumpIfNotEqual _ =>
    split
    · exact .inr (.inr ⟨_, rfl⟩)
    · exact .inr (.inl ⟨2, by decide, rfl⟩)
  | illegal _ => exact .inl rfl
  | underflow _ _ _ => exact .inl rfl
  | overflow _ _ => exact .inl rfl

theorem Answers.pc_le (h : Answers s i t) (hpc : s.pc.toNat ≤ 253) : t.pc.toNat ≤ 256 := by
  obtain he | ⟨k, hk, he⟩ | ⟨v, he⟩ := h.pc_cases
  · rw [he]; omega
  · rw [he, advance_pc_toNat hpc hk]; omega
  · have := v.isLt
    rw [he, jumpTo_pc_toNat]; omega

theorem compareFl_legal (x y : Byte) : FlLegal (compareFl x y) := by
  obtain ⟨-, he⟩ | ⟨-, he⟩ | ⟨-, he⟩ := compareFl_cases x y
  · exact .inr (.inr (.inl he))
  · exact .inr (.inr (.inr he))
  · exact .inr (.inl he)

theorem spDown_toNat (hsp : 1 ≤ s.sp.toNat) : s.spDown.toNat = s.sp.toNat - 1 := ofInt_spDec hsp

theorem Answers.mem_wf (h : Answers s i t) (hm : s.mem.wf = true) : t.mem.wf = true := by
  obtain he | ⟨-, -, v, he⟩ := h.mem_cases
  · rwa [he]
  · rw [he]
    exact wf_write hm s.spDown.isLt v

theorem Answers.fl_legal (h : Answers s i t) (hfl : FlLegal s.fl) : FlLegal t.fl := by
  obtain he | ⟨-, x, y, he⟩ := h.fl_cases
  · rwa [he]
  · rw [he]
    exact compareFl_legal x y

/-! ### The record of a fault -/

/-- HALT and RETURN have no register operand, so no illegal one. -/
theorem firstIllegal_eq_none (hop : i.op = .halt ∨ i.op = .ret) : firstIllegal i = none := by
  cases i <;> simp [Instr.op, Instr.registerOperands] at hop ⊢

theorem firstIllegal_ge {x : Byte} (hx : firstIllegal i = some x) : 8 ≤ x.toNat := by
  simpa using List.find?_some hx

theorem InstrRaises.legal {pc : PcWord} (h : InstrRaises i f) (hpc : pc.toNat ≤ 253) :
    FaultRecord.Legal ⟨f.cause, pc, some i.op.byte, f.info⟩ := by
  cases h with
  | @illegal x hx =>
    have hge := firstIllegal_ge hx
    have hlt := x.isLt
    have hop : ¬(i.op = .halt ∨ i.op = .ret) := fun hop => Option.some_ne_none x (hx.symm.trans (firstIllegal_eq_none hop))
    obtain ⟨hhalt, hret⟩ := not_or.mp hop
    exact ⟨hpc, Int.ofNat_le.mpr hge, Int.ofNat_le.mpr (Nat.le_of_lt_succ hlt), i.op, rfl, hhalt, hret⟩
  | underflow hop _ =>
    refine ⟨hpc, .inl ⟨rfl, ?_⟩⟩
    obtain hop | hop := hop
    · exact .inl (by rw [hop]; rfl)
    · exact .inr (by rw [hop]; rfl)
  | overflow hop _ =>
    refine ⟨hpc, .inr ⟨rfl, ?_⟩⟩
    obtain hop | hop := hop
    · exact .inl (by rw [hop]; rfl)
    · exact .inr (by rw [hop]; rfl)

theorem StepRaises.legal (h : StepRaises s f) (hpc : s.pc.toNat ≤ 256) :
    FaultRecord.Legal ⟨f.cause, s.pc, s.recordedOpcode, f.info⟩ := by
  cases h with
  | fetch hlo =>
    refine ⟨hlo, hpc, if_pos hpc, ?_⟩
    simp only [State.recordedOpcode]
    split <;> simp [*]
  | decode hlo hop =>
    exact ⟨hlo, _, if_pos (by omega), hop, rfl⟩
  | execute op hlo hop hf =>
    have hr : s.recordedOpcode = some (s.instrAtPc op).op.byte := by
      rw [op_instr, hop]
      exact if_pos (by omega)
    rw [hr]
    exact hf.legal hlo

/-! ### The invariant -/

/-- What a step does beside RUN and FAULT: nothing, or what the instruction at pc answers. -/
theorem step_keeps_or_answers (h : step s = .next t) :
    (∃ r x, t = { s with run := r, fault := x }) ∨
      s.CanFetch ∧ ∃ op, op.byte = s.opcodeAtPc ∧ Answers s (s.instrAtPc op) t := by
  cases stepPhase s with
  | ended hrun =>
    cases h.symm.trans (step_of_not_running hrun)
    exact .inl ⟨s.run, s.fault, rfl⟩
  | pastEnd hrun hpc =>
    cases h.symm.trans (step_of_pastEnd hrun hpc)
    exact .inl ⟨_, _, rfl⟩
  | unrecognized hc hop =>
    cases h.symm.trans (step_of_unrecognized hc hop)
    exact .inl ⟨_, _, rfl⟩
  | decoded op hc hop =>
    rw [step_of_decoded hc hop] at h
    exact .inr ⟨hc, op, hop, exec_cases h⟩

/-- The part of the invariant that does not speak of RUN and FAULT. -/
theorem step_keeps_mem_pc_fl (hs : s.Wf) (h : step s = .next t) :
    t.mem.wf = true ∧ t.pc.toNat ≤ 256 ∧ FlLegal t.fl := by
  obtain ⟨r, x, rfl⟩ | ⟨hc, op, -, ha⟩ := step_keeps_or_answers h
  · exact ⟨hs.mem, hs.pc, hs.fl⟩
  · exact ⟨ha.mem_wf hs.mem, ha.pc_le hc.2, ha.fl_legal hs.fl⟩

theorem State.Wf.fault_eq_none (hs : s.Wf) (hrun : s.run ≠ .faulted) : s.fault = none := by
  rw [← Option.not_isSome_iff_eq_none, hs.fault]
  exact hrun

/-- Settles O39: memory, pc and FL by what an instruction does to them; RUN and FAULT by whether the step completes or takes a
fault. -/
theorem stepKeepsWellFormed : Obligations.StepKeepsWellFormed := by
  intro s t hs h
  by_cases hrun : s.run = .running
  · obtain ⟨hmem, hpc, hfl⟩ := step_keeps_mem_pc_fl hs h
    obtain ⟨-, hfault, hr⟩ | ⟨f, hf, rfl⟩ := step_completes_or_raises hrun h
    · have hnone : t.fault = none := hfault.trans (hs.fault_eq_none (by rw [hrun]; decide))
      have hne : t.run ≠ .faulted := by
        obtain hr | ⟨hr, -⟩ := hr <;> rw [hr] <;> decide
      exact ⟨hmem, hpc, hfl, by simp [hnone, hne], fun r hr => by cases hnone.symm.trans hr⟩
    · refine ⟨hmem, hpc, hfl, iff_of_true rfl rfl, fun r hr => ?_⟩
      cases hr
      exact ⟨hf.legal hs.pc, rfl⟩
  · cases h.symm.trans (step_of_not_running hrun)
    exact hs

/-- Settles O18: a legal state that is not Faulted holds no record, a step that faults writes the legal record of its fault, and a
state that holds one takes no step. -/
theorem faultRecordIsWrittenOnce : Obligations.FaultRecordIsWrittenOnce := by
  refine ⟨fun s t hs h => ⟨fun ht => ?empty, fun hrun ht => ?written, fun r hr => ?held⟩, fun _ => rfl⟩
  case empty => exact (stepKeepsWellFormed s t hs h).fault_eq_none ht
  case written =>
    obtain ⟨f, hf, rfl⟩ := raises_of_faulted hrun h ht
    exact ⟨hs.fault_eq_none (by rw [hrun]; decide), _, rfl, hf.legal hs.pc, rfl⟩
  case held =>
    have hfaulted : s.run = .faulted := hs.fault.mp (by rw [hr]; rfl)
    cases h.symm.trans (step_of_not_running (by rw [hfaulted]; decide))
    exact hr

/-- Settles O38: memory is empty, pc and FL are 0, and no fault is recorded. -/
theorem resetIsWellFormed : Obligations.ResetIsWellFormed :=
  ⟨reset_mem_wf, by decide, .inl rfl, by decide, fun _ hr => by cases hr⟩

/-- Boot answers a state exactly where the image fits, and writes memory alone. -/
theorem boot_cases {bytes : List Byte} (h : boot bytes = .next s) :
    bytes.length ≤ 256 ∧ s = State.reset.setMem (storeFrom State.reset.mem 0 bytes) := by
  rcases Nat.lt_or_ge 256 bytes.length with hlen | hlen
  · cases h.symm.trans (loadImage_of_gt State.reset hlen)
  · exact ⟨hlen, by cases h.symm.trans (boot_of_le hlen); rfl⟩

theorem boot_wf {bytes : List Byte} (h : boot bytes = .next s) : s.Wf := by
  obtain ⟨hlen, rfl⟩ := boot_cases h
  have hreset := resetIsWellFormed
  exact ⟨wf_storeFrom reset_mem_wf (by omega), hreset.pc, hreset.fl, hreset.fault, hreset.record⟩

theorem Reaches.wf (h : Reaches s t) (hs : s.Wf) : t.Wf := by
  induction h with
  | refl => exact hs
  | step _ hstep ih => exact stepKeepsWellFormed _ _ ih hstep

/-- Settles O40: boot leaves a legal state, and every step keeps it legal. -/
theorem reachableStatesAreWellFormed : Obligations.ReachableStatesAreWellFormed := by
  rintro t ⟨bytes, s, hboot, hreach⟩
  exact hreach.wf (boot_wf hboot)

end Sys2Proof.Machine
end

section
/-! SUPPORT. The stack and the subroutine instructions (spec/44_stack.md, spec/45_subroutine.md). -/

namespace Sys2Proof.Machine

variable {s t : State} {a : Byte}

/-- Every register but R7, which the new SP value is written to, holds what it held. -/
theorem setSp_sameRegsExcept (s : State) (v : Byte) : SameRegsExcept [7] s (s.setReg Config.spIndex v) :=
  fun _ hq => reg_setReg_of_ne s (List.ne_of_not_mem_cons hq) v

theorem spDown_eq_spDec (hsp : 1 ≤ s.sp.toNat) : (s.spDown.toNat : Int) = spDec s.sp := by
  rw [spDown_toNat hsp, spDec]
  omega

theorem spUp_toNat (hsp : s.sp.toNat ≤ 254) : s.spUp.toNat = s.sp.toNat + 1 := ofInt_spInc hsp

/-- The store of a push: the byte at the new SP is the one stored, and every other byte reads as before. -/
theorem pushStore_read {w : Nat} (v : Byte) (hsp : 1 ≤ s.sp.toNat) (hw : (w : Int) = spDec s.sp) :
    (s.mem.write s.spDown.toNat v).read w = v ∧ ∀ x, x ≠ w → (s.mem.write s.spDown.toNat v).read x = s.mem.read x := by
  have he : w = s.spDown.toNat := Int.ofNat_inj.mp (hw.trans (spDown_eq_spDec hsp).symm)
  subst he
  exact ⟨read_write_self _ _ _, fun x hx => read_write_of_ne _ hx v⟩

/-- Settles O26: SP is written first, so the stored register is read from the state that holds the new SP. -/
theorem pushStoresBelowSp : Obligations.PushStoresBelowSp := by
  refine fun s a hpc => ⟨rfl, fun ha hsp => ?completes, fun ha hsp => execFaults_of_takeFault (exec_push_fault ha hsp),
    fun ha => execFaults_of_takeFault (exec_push_illegal ha)⟩
  case completes =>
    refine ⟨_, exec_push ha hsp, ?sp, fun w hw => pushStore_read _ hsp hw, ?pc, setSp_sameRegsExcept s _, rfl, rfl, rfl, rfl⟩
    case sp => rw [advance_sp, setMem_sp, setReg_sp_self, spDown_eq_spDec hsp]
    case pc => exact advance_pc_toNat (s := (s.setReg _ _).setMem _) hpc (by decide)

/-- Settles O28: pc + 2 is at most 255, so the stored byte is the return address itself; the target is read after the SP write. -/
theorem callStoresReturnAddress : Obligations.CallStoresReturnAddress := by
  refine fun s a hpc => ⟨rfl, fun ha hsp => ?completes, fun ha hsp => execFaults_of_takeFault (exec_call_fault ha hsp),
    fun ha => execFaults_of_takeFault (exec_call_illegal ha)⟩
  case completes =>
    refine ⟨_, exec_call ha hsp, ?sp, fun w hw => ?stored, jumpTo_pc_toNat _, setSp_sameRegsExcept s _, rfl, rfl, rfl, rfl⟩
    case sp => rw [jumpTo_sp, setMem_sp, setReg_sp_self, spDown_eq_spDec hsp]
    case stored =>
      obtain ⟨hstored, hother⟩ := pushStore_read (BitVec.ofNat 8 (s.pc.toNat + 2)) hsp hw
      refine ⟨?_, hother⟩
      rw [jumpTo_byteAt, setMem_byteAt, hstored, BitVec.toNat_ofNat]
      exact Nat.mod_eq_of_lt (by omega)

/-- Settles O29: the target is the byte at SP, read before SP moves. -/
theorem returnJumpsToPoppedByte : Obligations.ReturnJumpsToPoppedByte := by
  refine fun s _ => ⟨rfl, fun hsp => ?completes, fun hsp => execFaults_of_takeFault (exec_ret_fault hsp)⟩
  case completes =>
    refine ⟨_, exec_ret hsp, jumpTo_pc_toNat _, ?sp, setSp_sameRegsExcept s _, rfl, ⟨rfl, rfl, rfl⟩, fun _ => rfl⟩
    case sp => rw [jumpTo_sp, setReg_sp_self, spUp_toNat hsp]

/-! ### POP, whose load may write SP before the increment reads it (R481) -/

theorem afterLoad_sp_of_ne (ha : a.toNat < 8) (h7 : a.toNat ≠ 7) : (s.afterLoad ⟨a.toNat, ha⟩).sp = s.sp :=
  reg_setReg_of_ne s (fun h => h7 (congrArg Fin.val h).symm) _

theorem afterLoad_sp_of_eq (ha : a.toNat < 8) (h7 : a.toNat = 7) :
    (s.afterLoad ⟨a.toNat, ha⟩).sp = s.byteAt s.sp.toNat := by
  have he : (⟨a.toNat, ha⟩ : Fin 8) = Config.spIndex := Fin.ext h7
  rw [State.afterLoad, he, setReg_sp_self]

/-- Settles O27: the load leaves SP alone unless the destination is R7, where the increment starts from the loaded byte. -/
theorem popLoadsAtSp : Obligations.PopLoadsAtSp := by
  refine fun s a hpc => ⟨rfl, fun ha h7 hsp => ?other, fun h7 hsp => ?sp, fun ha hsp => ?otherFault, fun h7 hsp => ?spFault,
    fun ha => execFaults_of_takeFault (exec_pop_illegal ha)⟩
  case other =>
    have he := afterLoad_sp_of_ne (s := s) ha h7
    refine ⟨_, exec_pop ha (by rwa [he]), ?loaded, ?newSp, ?pc, fun q hq => ?frame, rfl, ⟨rfl, rfl, rfl⟩, fun _ => rfl⟩
    case loaded =>
      rw [advance_reg, reg_setReg_of_ne _ (fun h => h7 (congrArg Fin.val h)), reg_setReg_self]
    case newSp => rw [advance_sp, setReg_sp_self, spUp_toNat (by rwa [he]), he]
    case pc => exact advance_pc_toNat (s := (s.setReg _ _).setReg _ _) hpc (by decide)
    case frame =>
      rw [List.mem_cons, List.mem_singleton, not_or] at hq
      rw [advance_reg, reg_setReg_of_ne _ hq.2, reg_setReg_of_ne _ hq.1]
  case sp =>
    have ha : a.toNat < 8 := by omega
    have he := afterLoad_sp_of_eq (s := s) ha h7
    refine ⟨_, exec_pop ha (by rwa [he]), ?newSp, ?pc, fun q hq => ?frame, rfl, ⟨rfl, rfl, rfl⟩, fun _ => rfl⟩
    case newSp => rw [advance_sp, setReg_sp_self, spUp_toNat (by rwa [he]), he]
    case pc => exact advance_pc_toNat (s := (s.setReg _ _).setReg _ _) hpc (by decide)
    case frame =>
      have hq7 : q ≠ 7 := List.ne_of_not_mem_cons hq
      rw [advance_reg, reg_setReg_of_ne _ hq7, reg_setReg_of_ne _ fun h => hq7 (h.trans (Fin.ext h7))]
  case otherFault =>
    exact execFaults_of_takeFault (exec_pop_fault (by omega) (by rwa [afterLoad_sp_of_ne _ (by omega)]))
  case spFault =>
    exact execFaults_of_takeFault (exec_pop_fault (by omega) (by rwa [afterLoad_sp_of_eq _ h7]))

end Sys2Proof.Machine
end


section
/-! SUPPORT. The conditional jumps (spec/47_branch.md R541, R542). -/

namespace Sys2Proof.Machine

variable {s : State} {v : Byte}

/-- A conditional jump touches pc alone, whether or not it is taken. -/
theorem conditionalJump_frame (s : State) (taken : Bool) (v : Byte) :
    SameRegsExcept [] s (if taken then s.jumpTo v else s.advance 2) ∧
      (if taken then s.jumpTo v else s.advance 2).fl = s.fl ∧
      SameControl s (if taken then s.jumpTo v else s.advance 2) ∧
      SameMemory s (if taken then s.jumpTo v else s.advance 2) := by
  rw [conditionalJump_eq_setPc]
  exact ⟨fun _ _ => rfl, rfl, ⟨rfl, rfl, rfl⟩, fun _ => rfl⟩

theorem conditionalJump_taken_pc_toNat {taken : Bool} (h : taken = true) :
    (if taken then s.jumpTo v else s.advance 2).pc.toNat = v.toNat := by
  rw [if_pos h]
  exact jumpTo_pc_toNat v

theorem conditionalJump_notTaken_pc_toNat {taken : Bool} (h : taken = false) (hpc : s.pc.toNat ≤ 253) :
    (if taken then s.jumpTo v else s.advance 2).pc.toNat = s.pc.toNat + 2 := by
  rw [h, if_neg Bool.false_ne_true]
  exact advance_pc_toNat hpc (by decide)

theorem isEqual_eq_false {fl : Byte} (h : fl ≠ 0x01) : isEqual fl = false :=
  Bool.not_eq_true _ ▸ mt isEqual_iff.mp h

/-- Settles O32: the jump is taken exactly on the equality test of FL. -/
theorem jumpIfEqualTestsFl : Obligations.JumpIfEqualTestsFl := by
  refine fun s a hpc => ⟨rfl, fun ha => ?_, fun ha => execFaults_of_takeFault (exec_jumpIfEqual_illegal ha)⟩
  exact ⟨_, exec_jumpIfEqual ha, fun h => conditionalJump_taken_pc_toNat (isEqual_iff.mpr h),
    fun h => conditionalJump_notTaken_pc_toNat (isEqual_eq_false h) hpc, conditionalJump_frame s _ _⟩

/-- Settles O33: the jump is taken exactly where the equality test of FL fails. -/
theorem jumpIfNotEqualTestsFl : Obligations.JumpIfNotEqualTestsFl := by
  refine fun s a hpc => ⟨rfl, fun ha => ?_, fun ha => execFaults_of_takeFault (exec_jumpIfNotEqual_illegal ha)⟩
  exact ⟨_, exec_jumpIfNotEqual ha,
    fun h => conditionalJump_taken_pc_toNat (by rw [isEqual_eq_false h]; rfl),
    fun h => conditionalJump_notTaken_pc_toNat (by rw [isEqual_iff.mpr h]; rfl) hpc, conditionalJump_frame s _ _⟩

end Sys2Proof.Machine
end

section
/-! SUPPORT. Two instructions together (spec/44_stack.md R483, spec/45_subroutine.md R502): the increment of SP undoes the
decrement. -/

namespace Sys2Proof.Machine

variable {s t u : State} {a : Byte}

/-- SP moved down and up again is SP. -/
theorem spUp_of_spDown (hu : u.sp = s.spDown) (hsp : 1 ≤ s.sp.toNat) : u.spUp = s.sp := by
  have hlt := s.sp.isLt
  have hdown := spDown_toNat hsp
  rw [← hu] at hdown
  apply BitVec.eq_of_toNat_eq
  rw [spUp_toNat (by omega)]
  omega

/-- Loading into a register the byte it holds changes nothing. -/
theorem afterLoad_eq_self {r : Fin 8} (h : s.byteAt s.sp.toNat = s.reg r) : s.afterLoad r = s := by
  refine state_ext (regs_ext fun q => ?_) rfl rfl rfl rfl rfl rfl
  rw [reg_setReg]
  split
  · next hq => rw [h, hq]
  · rfl

/-- The byte a CALL leaves at SP, and the SP it leaves (R500). -/
theorem call_leaves (ha : a.toNat < 8) (hsp : 1 ≤ s.sp.toNat) (h : exec (.call a) s = .next t) :
    t.sp = s.spDown ∧ t.byteAt t.sp.toNat = BitVec.ofNat 8 (s.pc.toNat + 2) := by
  cases h.symm.trans (exec_call ha hsp)
  rw [jumpTo_sp, setMem_sp, setReg_sp_self]
  exact ⟨rfl, read_write_self _ _ _⟩

/-- Settles O36: the byte at SP is the return address, which a byte holds, and the increment gives back the SP of the CALL. -/
theorem returnResumesAfterCall : Obligations.ReturnResumesAfterCall := by
  intro s t u a ha hsp hpc hcall hu hbyte
  obtain ⟨htsp, htbyte⟩ := call_leaves ha hsp hcall
  have husp : u.sp = s.spDown := hu.trans htsp
  have hle : u.sp.toNat ≤ 254 := by
    have hlt := s.sp.isLt
    rw [husp, spDown_toNat hsp]
    omega
  refine ⟨_, exec_ret hle, ?pc, ?sp⟩
  case pc =>
    rw [jumpTo_pc_toNat, hbyte, htbyte, BitVec.toNat_ofNat]
    exact Nat.mod_eq_of_lt (by omega)
  case sp => rw [jumpTo_sp, setReg_sp_self, spUp_of_spDown husp hsp]

/-- The state a PUSH leaves (R480). -/
abbrev State.pushed (s : State) (r : Fin 8) : State :=
  ((s.setReg Config.spIndex s.spDown).setMem (s.mem.write s.spDown.toNat
    ((s.setReg Config.spIndex s.spDown).reg r))).advance 2

theorem pushed_sp (s : State) (r : Fin 8) : (s.pushed r).sp = s.spDown := setReg_sp_self s _

theorem pushed_top (s : State) (r : Fin 8) : (s.pushed r).byteAt (s.pushed r).sp.toNat = (s.pushed r).reg r := by
  rw [pushed_sp]
  exact read_write_self _ _ _

/-- Settles O35: the byte POP loads is what the register holds since the PUSH, so POP only moves SP back up. -/
theorem pushThenPopRestoresRegisters : Obligations.PushThenPopRestoresRegisters := by
  intro s a ha hsp hpc
  have hload : (s.pushed ⟨a.toNat, ha⟩).afterLoad ⟨a.toNat, ha⟩ = s.pushed ⟨a.toNat, ha⟩ :=
    afterLoad_eq_self (pushed_top s _)
  have hle : (s.pushed ⟨a.toNat, ha⟩).sp.toNat ≤ 254 := by
    have hlt := s.sp.isLt
    rw [pushed_sp, spDown_toNat hsp]
    omega
  have hpop := exec_pop ha (by rwa [hload])
  rw [hload, spUp_of_spDown (pushed_sp s _) hsp] at hpop
  refine ⟨_, _, exec_push ha hsp, hpop, regs_ext fun q => ?regs, ?pc, rfl, rfl, rfl, rfl⟩
  case regs =>
    by_cases hq : q = Config.spIndex
    · rw [hq, advance_reg, reg_setReg_self, State.sp]
    · rw [advance_reg, reg_setReg_of_ne _ hq]
      exact reg_setReg_of_ne s hq _
  case pc =>
    have hpush : (s.pushed ⟨a.toNat, ha⟩).pc.toNat = s.pc.toNat + 2 :=
      advance_pc_toNat (s := (s.setReg _ _).setMem _) (show s.pc.toNat ≤ 253 by omega) (by decide)
    have hpopped : (((s.pushed ⟨a.toNat, ha⟩).setReg Config.spIndex s.sp).advance 2).pc.toNat =
        (s.pushed ⟨a.toNat, ha⟩).pc.toNat + 2 :=
      advance_pc_toNat (s := (s.pushed _).setReg _ _) (show (s.pushed ⟨a.toNat, ha⟩).pc.toNat ≤ 253 by omega) (by decide)
    rw [hpopped, hpush]

end Sys2Proof.Machine
end

section
/-! SUPPORT. Which instruction writes which piece of state (spec/10_state.md R103, R111, spec/20_memory.md R203,
spec/42_data_movement.md R442), and the ALU's fault, which no step records (spec/43_arithmetic.md R463). -/

namespace Sys2Proof.Machine

variable {s t : State} {i : Instr}

/-! ### The writers of FL -/

/-- Settles O41: a step that runs no COMPARE leaves FL alone, and the code of a comparison is none of the others and not 0. -/
theorem flIsWrittenByCompareOnly : Obligations.FlIsWrittenByCompareOnly := by
  intro s t h
  obtain ⟨r, x, rfl⟩ | ⟨hc, op, hop, ha⟩ := step_keeps_or_answers h
  · exact ⟨fun hne => absurd rfl hne, .inl rfl, id⟩
  · obtain he | ⟨hcompare, x, y, he⟩ := ha.fl_cases
    · exact ⟨fun hne => absurd he hne, .inl he, fun hne => he ▸ hne⟩
    · have hbyte : s.opcodeAtPc = 0xA7 := by
        rw [← hop, ← op_instr op, hcompare]
        rfl
      refine ⟨fun _ => ⟨hc, hbyte⟩, ?_⟩
      obtain ⟨-, hcode⟩ | ⟨-, hcode⟩ | ⟨-, hcode⟩ := compareFl_cases x y <;> rw [he, hcode] <;> simp

/-! ### The writer of OUT -/

/-- PRINT_REGISTER appends the register its operand names; no other instruction writes OUT. -/
theorem Answers.out_cases (h : Answers s i t) :
    t.out = s.out ∨ ∃ (x : Byte) (hx : x.toNat < 8), i = .printRegister x ∧ t.out = s.out ++ [s.reg ⟨x.toNat, hx⟩] := by
  cases h with
  | printRegister hx => exact .inr ⟨_, hx, rfl, rfl⟩
  | jumpIfEqual _ => rw [conditionalJump_eq_setPc]; exact .inl rfl
  | jumpIfNotEqual _ => rw [conditionalJump_eq_setPc]; exact .inl rfl
  | _ => exact .inl rfl

theorem instr_eq_printRegister {op : Op} {a b x : Byte} (h : op.instr a b = .printRegister x) :
    op = .printRegister ∧ a = x := by
  cases op <;> cases h
  exact ⟨rfl, rfl⟩

/-- Settles O43: the one instruction that writes OUT is the one at pc, and its operand the byte after the opcode. -/
theorem outIsWrittenByPrintRegisterOnly : Obligations.OutIsWrittenByPrintRegisterOnly := by
  intro s t h
  obtain ⟨r, x, rfl⟩ | ⟨hc, op, hop, ha⟩ := step_keeps_or_answers h
  · exact .inl rfl
  · obtain he | ⟨x, hx, hi, he⟩ := ha.out_cases
    · exact .inl he
    · obtain ⟨rfl, rfl⟩ := instr_eq_printRegister hi
      exact .inr ⟨hc, hop.symm, hx, he⟩

/-! ### The writers of memory -/

/-- Settles O45: the store of a PUSH or CALL changes the byte at the decremented SP alone. -/
theorem memoryIsWrittenByPushAndCallOnly : Obligations.MemoryIsWrittenByPushAndCallOnly := by
  intro s t a h hne
  obtain ⟨r, x, rfl⟩ | ⟨hc, op, hop, ha⟩ := step_keeps_or_answers h
  · exact absurd rfl hne
  · obtain he | ⟨hpush, hsp, v, he⟩ := ha.mem_cases
    · exact absurd (by rw [byteAt_eq, he, byteAt_eq]) hne
    · have haddr : a = s.spDown.toNat := by
        by_contra hother
        exact hne (by rw [byteAt_eq, he, read_write_of_ne _ hother, byteAt_eq])
      rw [op_instr] at hpush
      refine ⟨hc, ?_, haddr ▸ spDown_eq_spDec hsp⟩
      rw [← hop]
      obtain rfl | rfl := hpush
      · exact .inl rfl
      · exact .inr rfl

/-! ### The writers of a register -/

/-- A register changes as the destination operand of the instruction, or as SP in a stack instruction (R103). -/
theorem Answers.reg_cases (h : Answers s i t) (r : Fin 8) :
    t.reg r = s.reg r ∨
      (i.op ∈ [.loadImmediate, .add, .multiply, .pop] ∧ ∃ x, i.operands.head? = some x ∧ x.toNat = r.val) ∨
      (i.op ∈ [.push, .pop, .call, .ret] ∧ r = 7) := by
  have hset : ∀ (u : State) (q : Fin 8) (v : Byte), (u.setReg q v).reg r = u.reg r ∨ r = q := fun u q v => by
    by_cases hr : r = q
    · exact .inr hr
    · exact .inl (reg_setReg_of_ne u hr v)
  cases h with
  | loadImmediate ha =>
    exact (hset s ⟨_, ha⟩ _).imp_right fun hr => .inl ⟨by simp [Instr.op], _, rfl, (congrArg Fin.val hr).symm⟩
  | add ha hb =>
    exact (hset s ⟨_, ha⟩ _).imp_right fun hr => .inl ⟨by simp [Instr.op], _, rfl, (congrArg Fin.val hr).symm⟩
  | multiply ha hb =>
    exact (hset s ⟨_, ha⟩ _).imp_right fun hr => .inl ⟨by simp [Instr.op], _, rfl, (congrArg Fin.val hr).symm⟩
  | push _ _ => exact (hset s 7 _).imp_right fun hr => .inr ⟨by simp [Instr.op], hr⟩
  | call _ _ => exact (hset s 7 _).imp_right fun hr => .inr ⟨by simp [Instr.op], hr⟩
  | ret _ => exact (hset s 7 _).imp_right fun hr => .inr ⟨by simp [Instr.op], hr⟩
  | pop ha _ =>
    obtain he | hr := hset (s.afterLoad ⟨_, ha⟩) 7 (s.afterLoad ⟨_, ha⟩).spUp
    · obtain he' | hr := hset s ⟨_, ha⟩ (s.byteAt s.sp.toNat)
      · exact .inl (he.trans he')
      · exact .inr (.inl ⟨by simp [Instr.op], _, rfl, (congrArg Fin.val hr).symm⟩)
    · exact .inr (.inr ⟨by simp [Instr.op], hr⟩)
  | jumpIfEqual _ => rw [conditionalJump_eq_setPc]; exact .inl rfl
  | jumpIfNotEqual _ => rw [conditionalJump_eq_setPc]; exact .inl rfl
  | _ => exact .inl rfl

theorem head?_operands_instr {op : Op} {a b x : Byte} (h : (op.instr a b).operands.head? = some x) : a = x := by
  cases op <;> cases h <;> rfl

/-- Settles O46: the two kinds of writers, with the operand byte after the opcode and the bytes of the operations. -/
theorem registersAreWrittenByTheTable : Obligations.RegistersAreWrittenByTheTable := by
  intro s t r h hne
  obtain ⟨_, _, rfl⟩ | ⟨hc, op, hop, ha⟩ := step_keeps_or_answers h
  · exact absurd rfl hne
  · have hbyte : ∀ ops : List Op, op ∈ ops → s.opcodeAtPc.toNat ∈ ops.map fun o => o.byte.toNat :=
      fun ops hmem => hop ▸ List.mem_map_of_mem hmem
    have hcases := ha.reg_cases r
    rw [op_instr] at hcases
    obtain he | ⟨hmem, x, hx, hr⟩ | ⟨hmem, hr⟩ := hcases
    · exact absurd he hne
    · exact ⟨hc, .inl ⟨hbyte _ hmem, head?_operands_instr hx ▸ hr⟩⟩
    · exact ⟨hc, .inr ⟨hbyte _ hmem, hr⟩⟩

/-! ### The ALU -/

theorem controls_aluTag_ne_unsupported (op : Op) (k : Nat) : (controls op).aluTag ≠ some (.unsupported k) := by
  cases op <;> simp [controls]

theorem StepRaises.cause_ne_aluUnsupported {f : CoreFault} (h : StepRaises s f) : f.cause ≠ .aluUnsupported := by
  cases h with
  | fetch _ => exact Cause.noConfusion
  | decode _ _ => exact Cause.noConfusion
  | execute op _ _ hf => cases hf <;> exact Cause.noConfusion

/-- A step that writes a record takes one of its own faults. -/
theorem raises_of_fault_written {r : FaultRecord} (hs : s.fault = none) (h : step s = .next t) (hr : t.fault = some r) :
    ∃ f, StepRaises s f ∧ r.cause = f.cause := by
  by_cases hrun : s.run = .running
  · obtain ⟨-, hfault, -⟩ | ⟨f, hf, rfl⟩ := step_completes_or_raises hrun h
    · cases hr.symm.trans (hfault.trans hs)
    · cases hr
      exact ⟨f, hf, rfl⟩
  · cases h.symm.trans (step_of_not_running hrun)
    cases hr.symm.trans hs

/-- Settles O47: the three tags compute byte operations, the table names no other tag, and the faults of a step are those of its
phases. -/
theorem aluComputesAndItsFaultIsUnreachable : Obligations.AluComputesAndItsFaultIsUnreachable := by
  refine ⟨fun a b => ⟨_, _, rfl, BitVec.toNat_add a b, rfl, BitVec.toNat_mul a b⟩,
    fun a b => ⟨_, rfl, compareFl_of_gt, compareFl_of_lt, compareFl_of_eq⟩, fun _ _ _ => rfl,
    controls_aluTag_ne_unsupported, fun s t r hs h hr => ?_⟩
  obtain ⟨f, hf, hcause⟩ := raises_of_fault_written hs h hr
  exact hcause.trans_ne hf.cause_ne_aluUnsupported

end Sys2Proof.Machine
end

section
/-! SUPPORT. What a step reads of FL and OUT (spec/10_state.md R112, spec/42_data_movement.md R442), from the ports of the blocks: two
machines that differ only in OUT and in FL, with the same answer to the equality test, take the same step. -/

namespace Sys2Proof.Machine

variable {s t : State} {fl : Byte} {out : List Byte}

/-- The same state with another FL and another OUT. -/
def State.withFlOut (s : State) (fl : Byte) (out : List Byte) : State := { s with fl := fl, out := out }

/-- `t'` is what the step from `s` to `t` makes of `s` with FL `fl` and OUT `out`: the same bytes are appended to OUT, and FL keeps its
own value in both or is written to the same one, by COMPARE. -/
def StepsAlike (s t : State) (fl : Byte) (out : List Byte) (compare : Prop) (t' : State) : Prop :=
  ∃ appended, t.out = s.out ++ appended ∧
    (t' = t.withFlOut fl (out ++ appended) ∧ t.fl = s.fl ∨ t' = t.withFlOut t.fl (out ++ appended) ∧ compare)

theorem stepsAlike_takeFault (s : State) (fl : Byte) (out : List Byte) (compare : Prop) (o : Option Byte) (f : CoreFault) :
    StepsAlike s (takeFault o f s) fl out compare (takeFault o f (s.withFlOut fl out)) :=
  ⟨[], (List.append_nil _).symm, .inl ⟨by rw [List.append_nil]; rfl, rfl⟩⟩

/-! ### The ports -/

/-- The byte that PRINT_REGISTER's port appends (R442). -/
def outPort (c : Controls) (ra : Byte) : List Byte := if c.outEn then [ra] else []

theorem writeBack_out (c : Controls) (n : BitVec 2) (a b : Byte) (st : StackOut) (rdata ra : Byte) (y : Option Byte)
    (s : State) : (writeBack c n a b st rdata ra y s).out = s.out ++ outPort c ra := by
  rw [writeBack, outPort]
  cases c.outEn <;> simp

/-- The write-back reads FL through its equality test and OUT to append to it. -/
theorem writeBack_withFlOut (c : Controls) (n : BitVec 2) (a b : Byte) (st : StackOut) (rdata ra : Byte) (y : Option Byte)
    (hfl : isEqual fl = isEqual s.fl) :
    writeBack c n a b st rdata ra y (s.withFlOut fl out) =
      (writeBack c n a b st rdata ra y s).withFlOut (flagsRegister fl c.flWe (y.getD fl)) (out ++ outPort c ra) := by
  refine state_ext rfl ?pc rfl rfl rfl (writeBack_out c n a b st rdata ra y _) rfl
  case pc =>
    change nextPc c.pcSel s.pc n ra rdata (isEqual fl) = nextPc c.pcSel s.pc n ra rdata (isEqual s.fl)
    rw [hfl]

/-- COMPARE alone drives `fl_we` (R111). -/
theorem flWe_eq_false {op : Op} (hop : op ≠ .compare) : (controls op).flWe = false := by
  cases op with
  | compare => exact absurd rfl hop
  | _ => rfl

theorem stepsAlike_writeBack (op : Op) (n : BitVec 2) (a b : Byte) (st : StackOut) (rdata ra : Byte) {y : Option Byte}
    (hy : y.isSome = (controls op).aluTag.isSome) (hfl : isEqual fl = isEqual s.fl) (out : List Byte) :
    StepsAlike s (writeBack (controls op) n a b st rdata ra y s) fl out (op = .compare)
      (writeBack (controls op) n a b st rdata ra y (s.withFlOut fl out)) := by
  refine ⟨outPort (controls op) ra, writeBack_out _ n a b st rdata ra y s, ?_⟩
  rw [writeBack_withFlOut _ n a b st rdata ra y hfl]
  by_cases hop : op = .compare
  · subst hop
    obtain ⟨v, rfl⟩ := Option.isSome_iff_exists.mp hy
    exact .inr ⟨rfl, rfl⟩
  · have hwe := flWe_eq_false hop
    refine .inl ⟨by rw [hwe]; rfl, ?_⟩
    change flagsRegister s.fl (controls op).flWe (y.getD s.fl) = s.fl
    rw [hwe]
    rfl

/-- The decoder issues supported tags alone, so the ALU answers a byte (R463). -/
theorem alu_ok {op : Op} {tag : AluTag} (htag : (controls op).aluTag = some tag) (x y : Byte) :
    ∃ v, alu tag x y = .ok v := by
  cases tag with
  | add => exact ⟨_, rfl⟩
  | mul => exact ⟨_, rfl⟩
  | cmp => exact ⟨_, rfl⟩
  | unsupported k => exact absurd htag (controls_aluTag_ne_unsupported op k)

/-! ### The phases -/

/-- Neither the stack port nor the read ports carry FL or OUT, so both machines write back, or fault, alike. -/
theorem stepsAlike_executeOp (op : Op) (a b : Byte) (hfl : isEqual fl = isEqual s.fl) (out : List Byte) :
    StepsAlike s (executeOp op a b s) fl out (op = .compare) (executeOp op a b (s.withFlOut fl out)) := by
  cases hst : (stackPort (controls op) a s).fault with
  | true =>
    rw [executeOp, executeOp, executeBlocks_of_stackFault hst, executeBlocks_of_stackFault (s := s.withFlOut fl out) hst]
    exact stepsAlike_takeFault s fl out _ _ _
  | false =>
    cases htag : (controls op).aluTag with
    | none =>
      rw [executeOp, executeOp, executeBlocks_of_noAlu hst htag, executeBlocks_of_noAlu (s := s.withFlOut fl out) hst htag]
      exact stepsAlike_writeBack op _ a b _ _ _ (by rw [htag]; rfl) hfl out
    | some tag =>
      obtain ⟨y, hy⟩ := alu_ok htag (readPort s.regs (portIndex a) (updatedSpPort (controls op) a s))
        (readPort s.regs (portIndex b) (updatedSpPort (controls op) a s))
      rw [executeOp, executeOp, executeBlocks_of_alu hst htag hy,
        executeBlocks_of_alu (s := s.withFlOut fl out) hst htag hy]
      exact stepsAlike_writeBack op _ a b _ _ _ (by rw [htag]; rfl) hfl out

theorem stepsAlike_executeChecked (op : Op) (a b : Byte) (hfl : isEqual fl = isEqual s.fl) (out : List Byte) :
    StepsAlike s (executeChecked op a b s) fl out (op = .compare) (executeChecked op a b (s.withFlOut fl out)) := by
  rw [executeChecked_eq, executeChecked_eq]
  cases firstIllegal (op.instr a b) with
  | some x => exact stepsAlike_takeFault s fl out _ _ _
  | none => exact stepsAlike_executeOp op a b hfl out

/-- The datapath reads FL through its equality test alone, and OUT not at all. -/
theorem stepsAlike_datapath (hfl : isEqual fl = isEqual s.fl) (out : List Byte) :
    StepsAlike s (datapath s) fl out (s.opcodeAtPc = 0xA7) (datapath (s.withFlOut fl out)) := by
  cases stepPhase s with
  | ended hrun =>
    rw [datapath_of_not_running hrun, datapath_of_not_running (s := s.withFlOut fl out) hrun]
    exact ⟨[], (List.append_nil _).symm, .inl ⟨by rw [List.append_nil], rfl⟩⟩
  | pastEnd hrun hpc =>
    rw [datapath_of_pastEnd hrun hpc, datapath_of_pastEnd (s := s.withFlOut fl out) hrun hpc]
    exact stepsAlike_takeFault s fl out _ _ _
  | unrecognized hc hop =>
    rw [datapath_of_unrecognized hc hop, datapath_of_unrecognized (s := s.withFlOut fl out) hc hop]
    exact stepsAlike_takeFault s fl out _ _ _
  | decoded op hc hop =>
    rw [datapath_of_decoded hc hop, datapath_of_decoded (s := s.withFlOut fl out) hc hop]
    obtain ⟨appended, hout, halike | ⟨ht, hcompare⟩⟩ := stepsAlike_executeChecked op _ _ hfl out
    · exact ⟨appended, hout, .inl halike⟩
    · exact ⟨appended, hout, .inr ⟨ht, by rw [← hop, hcompare]; rfl⟩⟩

/-- The same of the step, which the datapath computes. -/
theorem step_withFlOut (h : step s = .next t) (hfl : isEqual fl = isEqual s.fl) (out : List Byte) :
    ∃ t', step (s.withFlOut fl out) = .next t' ∧ StepsAlike s t fl out (s.opcodeAtPc = 0xA7) t' := by
  cases h.symm.trans (datapathRefinesStep s)
  exact ⟨_, datapathRefinesStep _, stepsAlike_datapath hfl out⟩

/-- Settles O42: two FL values that are not Equal answer the equality test alike. -/
theorem onlyEqualityOfFlIsRead : Obligations.OnlyEqualityOfFlIsRead := by
  intro s t f hs hf h
  have hfl : isEqual f = isEqual s.fl := (isEqual_eq_false hf).trans (isEqual_eq_false hs).symm
  obtain ⟨t', ht', appended, hout, ⟨he, hkept⟩ | ⟨he, hcompare⟩⟩ := step_withFlOut h hfl s.out
  · exact .inl ⟨ht'.trans (by rw [he, ← hout]; rfl), hkept⟩
  · exact .inr ⟨ht'.trans (by rw [he, ← hout]; rfl), hcompare⟩

/-- Settles O44: the machine with another OUT holds the same FL, so the step writes the same FL to both. -/
theorem outIsNeverReadBack : Obligations.OutIsNeverReadBack := by
  intro s t o h
  obtain ⟨t', ht', appended, hout, ⟨he, hkept⟩ | ⟨he, -⟩⟩ := step_withFlOut h rfl o
  · exact ⟨appended, hout, ht'.trans (by rw [he, ← hkept]; rfl)⟩
  · exact ⟨appended, hout, ht'.trans (by rw [he]; rfl)⟩

end Sys2Proof.Machine
end

section
/-! SUPPORT. Runs (spec/70_reset_and_hazards.md R704, R708): the states that steps lead to are the states after some number of steps,
and a run that ends stays at its end. -/

namespace Sys2Proof.Machine

variable {s t u : State}

theorem core_run_add {n : Nat} (h : core.run n s = .next t) (m : Nat) : core.run (n + m) s = core.run m t := by
  induction n generalizing s with
  | zero =>
    cases h
    rw [Nat.zero_add]
  | succ k ih =>
    obtain ⟨w, hw⟩ := everyStepAnswersANextState.1 s
    rw [core_run_succ k hw] at h
    rw [Nat.succ_add, core_run_succ _ hw, ih h]

theorem reaches_of_core_run {n : Nat} (hs : Reaches u s) (h : core.run n s = .next t) : Reaches u t := by
  induction n generalizing s with
  | zero =>
    cases h
    exact hs
  | succ k ih =>
    obtain ⟨w, hw⟩ := everyStepAnswersANextState.1 s
    rw [core_run_succ k hw] at h
    exact ih (.step hs hw) h

theorem reaches_iff_core_run : Reaches s t ↔ ∃ n, core.run n s = .next t := by
  constructor
  · intro h
    induction h with
    | refl => exact ⟨0, rfl⟩
    | step _ hstep ih =>
      obtain ⟨n, hn⟩ := ih
      exact ⟨n + 1, by rw [core_run_add hn, core_run_succ 0 hstep]; rfl⟩
  · rintro ⟨n, hn⟩
    exact reaches_of_core_run .refl hn

theorem runToEnd_of_not_running (h : s.run ≠ .running) (n : Nat) : runToEnd n s = some s := by
  cases n <;> rw [runToEnd, if_neg h]

theorem runToEnd_succ (n : Nat) (hrun : s.run = .running) (h : step s = .next u) : runToEnd (n + 1) s = runToEnd n u := by
  rw [runToEnd, if_pos hrun, h]

/-- A run that has ended after `n` steps is what the executor finds under fuel `n`. -/
theorem runToEnd_of_core_run {n : Nat} (h : core.run n s = .next t) (ht : t.run ≠ .running) : runToEnd n s = some t := by
  induction n generalizing s with
  | zero =>
    cases h
    exact runToEnd_of_not_running ht 0
  | succ k ih =>
    by_cases hrun : s.run = .running
    · obtain ⟨w, hw⟩ := everyStepAnswersANextState.1 s
      rw [core_run_succ k hw] at h
      rw [runToEnd_succ k hrun hw, ih h]
    · cases h.symm.trans (endedRunsStayAsTheyAre s _ hrun)
      exact runToEnd_of_not_running hrun _

/-- Settles O55: both sides say that the machine is in `t`, not Running, after some number of steps. -/
theorem runToEndIsReachability : Obligations.RunToEndIsReachability := by
  intro s t
  rw [reaches_iff_core_run]
  constructor
  · rintro ⟨n, hn⟩
    obtain ⟨hrun, hend⟩ := core_run_of_runToEnd hn
    exact ⟨⟨n, hrun⟩, hend⟩
  · rintro ⟨⟨n, hn⟩, hend⟩
    exact ⟨n, runToEnd_of_core_run hn hend⟩

/-- A run has at most one end: after as many steps as both together it is in either. -/
theorem reaches_end_unique (ht : Reaches s t) (hu : Reaches s u) (htend : t.run ≠ .running) (huend : u.run ≠ .running) :
    t = u := by
  obtain ⟨n, hn⟩ := reaches_iff_core_run.mp ht
  obtain ⟨m, hm⟩ := reaches_iff_core_run.mp hu
  have htn : core.run (n + m) s = .next t := (core_run_add hn m).trans (endedRunsStayAsTheyAre t m htend)
  have hum : core.run (m + n) s = .next u := (core_run_add hm n).trans (endedRunsStayAsTheyAre u n huend)
  rw [Nat.add_comm] at hum
  cases htn.symm.trans hum
  rfl

/-- Settles O56: a Halted state and a Faulted one would be two ends of the run. -/
theorem runThatEndsWellIsSafe : Obligations.RunThatEndsWellIsSafe := by
  rintro s t ⟨ht, hhalted⟩ u hu hfaulted
  cases reaches_end_unique ht hu (by rw [hhalted]; decide) (by rw [hfaulted]; decide)
  cases hhalted.symm.trans hfaulted

/-- Settles O21: HALT writes RUN alone, and a Halted machine takes no step. -/
theorem haltStopsTheRun : Obligations.HaltStopsTheRun :=
  fun s _ => ⟨rfl, s.setRun .halted, exec_halt, rfl, rfl, rfl, rfl, rfl, fun _ _ => rfl, fun _ => rfl,
    step_of_not_running (by rw [setRun_run]; decide)⟩

end Sys2Proof.Machine
end

section
/-! SUPPORT. Reset, boot and the host's session (spec/70_reset_and_hazards.md R700 to R711): every move of a session keeps the CORE in a
run from boot, and starts the session for good. -/

namespace Sys2Proof.Machine

theorem load_awaitingLoad_of_le {bytes : List Byte} (h : bytes.length ≤ 256) :
    load bytes .awaitingLoad = .next (.started (State.reset.setMem (storeFrom State.reset.mem 0 bytes))) := by
  rw [load, loadImage_of_le _ h, Session.start]

/-- Booting the empty image leaves the reset state (R702). -/
theorem boot_nil : boot [] = .next State.reset := boot_of_le (Nat.zero_le 256)

theorem Reachable.step {s t : State} (hs : Reachable s) (h : Machine.step s = .next t) : Reachable t := by
  obtain ⟨bytes, u, hboot, hu⟩ := hs
  exact ⟨bytes, u, hboot, .step hu h⟩

theorem Session.Reaches.core_reachable {v : Session} (h : Session.awaitingLoad.Reaches v) : Reachable v.core := by
  induction h with
  | refl => exact ⟨[], State.reset, boot_nil, .refl⟩
  | load bytes _ hload _ =>
    obtain ⟨-, s, hboot, rfl⟩ := load_cases hload
    exact ⟨bytes, s, hboot, .refl⟩
  | step _ hstep ih =>
    obtain ⟨s, hs, rfl⟩ := Session.step_cases hstep
    exact ih.step hs

/-- Settles O58: a load is a boot, a step of the session is a step of the CORE, and every state of a run is legal. -/
theorem sessionStatesAreReachable : Obligations.SessionStatesAreReachable := by
  intro h v hv
  have hreach : Reachable v.core := hv.core_reachable
  exact ⟨hreach, reachableStatesAreWellFormed _ hreach⟩

/-- Settles O57: a load that is made, or a step, starts the session, and a started session stays started. -/
theorem oneProgramIsLoadedPerReset : Obligations.OneProgramIsLoadedPerReset := by
  intro h u v bytes hmove hv
  have hstarted : ∃ s, u = .started s := by
    obtain hload | hstep := hmove
    · obtain ⟨-, s, -, rfl⟩ := load_cases hload
      exact ⟨s, rfl⟩
    · obtain ⟨s, -, rfl⟩ := Session.step_cases hstep
      exact ⟨s, rfl⟩
  obtain ⟨s, rfl⟩ := hstarted
  obtain ⟨t, rfl, -⟩ := Session.started_of_reaches hv
  exact ⟨fun _ => rfl, fun bytes' hlen => ⟨_, load_awaitingLoad_of_le hlen⟩⟩

/-- Settles O52: right after reset the length decides, and in a started session no load is admitted. -/
theorem loadRefusesLongImagesAndLaterLoads : Obligations.LoadRefusesLongImagesAndLaterLoads := by
  refine ⟨fun bytes hlen => ⟨_, boot_of_le hlen, load_awaitingLoad_of_le hlen⟩, fun bytes hlen => ?long, fun _ _ => rfl⟩
  case long =>
    have hboot : boot bytes = .fault .loadError := loadImage_of_gt State.reset hlen
    exact ⟨hboot, congrArg Session.start hboot⟩

/-- Settles O50: reset writes SP_INIT to R7, and the reset input gives that state. -/
theorem resetSetsSpAndRunState : Obligations.ResetSetsSpAndRunState :=
  ⟨reset_reg Config.spIndex, rfl, rfl, rfl, fun _ => rfl⟩

/-- Settles O53: the empty image leaves 0x00 at pc = 0, which is no operation's byte. -/
theorem emptyMachineFaultsAtOnce : Obligations.EmptyMachineFaultsAtOnce := by
  have hc : State.reset.CanFetch := ⟨rfl, Nat.zero_le 253⟩
  have hop : decodeOp State.reset.opcodeAtPc = none := decodeOp_eq_none_of_not_mem (by decide)
  exact ⟨_, _, boot_nil, step_of_unrecognized hc hop, takeFault_faultedFrom _ (.unsupportedOperation 0x00), rfl⟩

end Sys2Proof.Machine
end

section
/-! SUPPORT. Memory and fetch (spec/20_memory.md R202, R213): what `MemWrite` stores, the fetch that reads it, and an instruction placed
at the fetch address. -/

namespace Sys2Proof.Machine

variable {s t : State}

/-- Settles O9: in range the write is one cell of memory, out of range it is the fault. -/
theorem memWriteStoresLowByte : Obligations.MemWriteStoresLowByte := by
  refine fun s a v => ⟨fun ha => memWrite_of_outOfRange ha v, ?inRange⟩
  case inRange =>
    rintro n rfl hn
    refine ⟨_, memWrite_of_inRange hn v, ?_, fun x hx => ?_, ⟨rfl, rfl, rfl⟩, rfl, rfl, rfl,
      fun hm => wf_write hm (Nat.lt_succ_of_le hn) _⟩
    · rw [setMem_byteAt, read_write_self, BitVec.toNat_ofNat]
    · rw [setMem_byteAt, read_write_of_ne _ hx, byteAt_eq]

/-- A write that answers a state was in range, and the byte there is the one stored. -/
theorem byteAt_of_memWrite {w v : Nat} (h : memWrite s w v = .ok t) : (t.byteAt w).toNat = v % 256 := by
  obtain ⟨hout, hin⟩ := memWriteStoresLowByte s w v
  rcases Nat.lt_or_ge 255 w with hw | hw
  · cases h.symm.trans (hout (by omega))
  · obtain ⟨t', ht', hv, -⟩ := hin w rfl hw
    cases h.symm.trans ht'
    exact hv

/-- Settles O10: the fetch reads the three bytes at pc from the memory that holds the stored one. -/
theorem fetchSeesTheStoredByte : Obligations.FetchSeesTheStoredByte := by
  intro s t w v h hpc
  have hv := byteAt_of_memWrite h
  refine ⟨_, fetch_ok hpc, ?_, ?_, ?_⟩ <;> rintro rfl <;> exact hv

theorem placeAddress_le (s : State) : placeAddress s ≤ 253 := by
  rw [placeAddress]
  split <;> omega

theorem placeInstruction_pc_toNat (s : State) (b0 b1 b2 : Byte) :
    (placeInstruction s b0 b1 b2).pc.toNat = placeAddress s := by
  have hle := placeAddress_le s
  rw [placeInstruction, BitVec.toNat_ofNat]
  omega

theorem placeInstruction_canFetch (s : State) (b0 b1 b2 : Byte) : (placeInstruction s b0 b1 b2).CanFetch :=
  ⟨rfl, by rw [placeInstruction_pc_toNat]; exact placeAddress_le s⟩

/-- The three bytes placed are the three bytes that the next fetch reads. -/
theorem placeInstruction_bytes (s : State) (b0 b1 b2 : Byte) :
    (placeInstruction s b0 b1 b2).opcodeAtPc = b0 ∧
      (placeInstruction s b0 b1 b2).byteAt ((placeInstruction s b0 b1 b2).pc.toNat + 1) = b1 ∧
      (placeInstruction s b0 b1 b2).byteAt ((placeInstruction s b0 b1 b2).pc.toNat + 2) = b2 := by
  rw [State.opcodeAtPc, placeInstruction_pc_toNat]
  simp [placeInstruction, byteAt_eq, read_write]

/-- Where a fetch could be made already, placing writes memory alone. -/
theorem placeInstruction_of_canFetch (hc : s.CanFetch) (b0 b1 b2 : Byte) :
    ∃ m, placeInstruction s b0 b1 b2 = s.setMem m := by
  obtain ⟨hrun, hpc⟩ := hc
  have haddr : placeAddress s = s.pc.toNat := if_pos (by omega)
  refine ⟨(placeInstruction s b0 b1 b2).mem, state_ext rfl ?pc rfl hrun.symm (if_pos hrun) rfl rfl⟩
  case pc =>
    apply BitVec.eq_of_toNat_eq
    rw [placeInstruction_pc_toNat, haddr, setMem_pc]

theorem decodeTableWord_eq_some {nbits w : Nat} {i : Instr} (h : decodeTableWord nbits w = some i) :
    decode (tableByte nbits w 0) (tableByte nbits w 1) (tableByte nbits w 2) = .ok i := by
  rw [decodeTableWord] at h
  split at h
  · next hd => cases h; exact hd
  · cases h

/-- Settles O12: the fetch reads back the three bytes placed, and the step executes what they decode to. -/
theorem placedInstructionIsTheNextStep : Obligations.PlacedInstructionIsTheNextStep := by
  intro s nbits w i hi
  have hc : (s.withFetchWord nbits w).CanFetch := placeInstruction_canFetch s _ _ _
  obtain ⟨h0, h1, h2⟩ := placeInstruction_bytes s (tableByte nbits w 0) (tableByte nbits w 1) (tableByte nbits w 2)
  refine ⟨hc, step_of_decode hc ?_, fun hs => placeInstruction_of_canFetch hs _ _ _⟩
  rw [State.withFetchWord, h0, h1, h2]
  exact decodeTableWord_eq_some hi

end Sys2Proof.Machine
end
